-- ==== Sys2Proof/Word.lean ====
section
/-! DEFINITION. The word types of the CORE block. Every value is unsigned (00_scope.md R8). -/

namespace Sys2Proof

/-- An 8-bit register value, memory byte or byte immediate (10_state.md R20, 20_memory.md R50). -/
abbrev Byte := BitVec 8

/-- A 16-bit instruction word, program counter or return address (30_encoding.md R70, 10_state.md R27, R31). -/
abbrev Word := BitVec 16

/-- A 4-bit register index, `x` or `y` (30_encoding.md R72). All 16 values are legal (R75). -/
abbrev Reg := BitVec 4

/-- The 4-bit field `d` (30_encoding.md R72). -/
abbrev Nibble := BitVec 4

/-- A 12-bit byte address, and the field `addr` (20_memory.md R51, 30_encoding.md R72). -/
abbrev Addr := BitVec 12

end Sys2Proof
end

