-- ==== Sys2Proof/Syntax.lean ====
section
/-! DEFINITION. The instructions: one constructor per row of spec/opcode_table.json (30_encoding.md R85). Operands are the
decoded fields of R72; the ignored nibble of ADDN is no operand, since all its values mean the same instruction (R92). -/

namespace Sys2Proof

/-- The twelve instructions of 30_encoding.md R85. -/
inductive Instr where
  /-- HALT, 0x0000 (R100). -/
  | halt
  /-- RET, 0x00EE (R101). -/
  | ret
  /-- CALL addr, 0x2nnn (R102). -/
  | call (addr : Addr)
  /-- SE Vx, kk, 0x3xkk (R110). -/
  | se (x : Reg) (kk : Byte)
  /-- SNE Vx, kk, 0x4xkk (R111). -/
  | sne (x : Reg) (kk : Byte)
  /-- LD Vx, kk, 0x6xkk (R120). -/
  | ldImm (x : Reg) (kk : Byte)
  /-- ADDN Vx, d, 0x7x-d (R121). -/
  | addn (x : Reg) (d : Nibble)
  /-- LD Vx, Vy, 0x8xy0 (R130). -/
  | ldReg (x y : Reg)
  /-- OR Vx, Vy, 0x8xy1 (R131). -/
  | or (x y : Reg)
  /-- AND Vx, Vy, 0x8xy2 (R132). -/
  | and (x y : Reg)
  /-- XOR Vx, Vy, 0x8xy3 (R133). -/
  | xor (x y : Reg)
  /-- ADD Vx, Vy, 0x8xy4 (R134). -/
  | add (x y : Reg)
  deriving DecidableEq, Repr

end Sys2Proof
end

