-- ==== Sys2Proof/WellFormed.lean ====
section
/-! DEFINITION. The operand ranges of 30_encoding.md R90: a register is one hexadecimal digit, `kk` an 8-bit number, `addr` a
12-bit number, `d` a 4-bit number (R92: `d` > 15 is refused). The checks are on plain numbers, as a program listing writes
them. The operands of an `Instr` carry their range in their type, so `Instr.wellFormed` holds of every one of them
(Sys2Proof/Laws/Decode.lean), which is R75's "All 16 values are legal in both fields" and its like for the immediates. -/

namespace Sys2Proof

/-- The kinds of operand a listing can write (30_encoding.md R90). -/
inductive OperandKind where
  | reg
  | nibble
  | byte
  | addr
  deriving DecidableEq, Repr

/-- The width in bits of each kind's field (30_encoding.md R72). -/
def OperandKind.width : OperandKind → Nat
  | .reg => 4
  | .nibble => 4
  | .byte => 8
  | .addr => 12

/-- Whether a number fits the kind's field (30_encoding.md R90, R92). -/
def OperandKind.inRange (k : OperandKind) (n : Nat) : Bool :=
  decide (n < 2 ^ k.width)

/-- The operands of an instruction as a listing writes them, in order (30_encoding.md R90). -/
def Instr.operands : Instr → List (OperandKind × Nat)
  | .halt => []
  | .ret => []
  | .call addr => [(.addr, addr.toNat)]
  | .se x kk => [(.reg, x.toNat), (.byte, kk.toNat)]
  | .sne x kk => [(.reg, x.toNat), (.byte, kk.toNat)]
  | .ldImm x kk => [(.reg, x.toNat), (.byte, kk.toNat)]
  | .addn x d => [(.reg, x.toNat), (.nibble, d.toNat)]
  | .ldReg x y => [(.reg, x.toNat), (.reg, y.toNat)]
  | .or x y => [(.reg, x.toNat), (.reg, y.toNat)]
  | .and x y => [(.reg, x.toNat), (.reg, y.toNat)]
  | .xor x y => [(.reg, x.toNat), (.reg, y.toNat)]
  | .add x y => [(.reg, x.toNat), (.reg, y.toNat)]

/-- Every operand is in the range of its kind. -/
def Instr.wellFormed (i : Instr) : Bool :=
  i.operands.all fun p => p.1.inRange p.2

end Sys2Proof
end

