-- ==== Sys2Proof/Decode.lean ====
section
/-! DEFINITION. The decoder of 30_encoding.md R72, R83 to R87: fields, the dispatch table with its match and mask, and after
it the encoder of R90 and the range-checked entry from plain numbers. -/

namespace Sys2Proof

/-- The fields the decoder extracts from every word, whatever the instruction (30_encoding.md R72, R83). -/
structure Fields where
  x : Reg
  y : Reg
  d : Nibble
  addr : Addr
  kk : Byte
  deriving DecidableEq, Repr

/-- The decode stage (30_encoding.md R83). It cannot fail and depends on the word alone. -/
def Fields.ofWord (op : Word) : Fields where
  x := op.extractLsb' 8 4
  y := op.extractLsb' 4 4
  d := op.extractLsb' 0 4
  addr := op.extractLsb' 0 12
  kk := op.extractLsb' 0 8

/-- The twelve operations, the rows of 30_encoding.md R85 by name. -/
inductive Op where
  | halt | ret | call | se | sne | ldImm | addn | ldReg | or | and | xor | add
  deriving DecidableEq, Repr

/-- The operation of an instruction. -/
def Instr.op : Instr → Op
  | .halt => .halt
  | .ret => .ret
  | .call _ => .call
  | .se _ _ => .se
  | .sne _ _ => .sne
  | .ldImm _ _ => .ldImm
  | .addn _ _ => .addn
  | .ldReg _ _ => .ldReg
  | .or _ _ => .or
  | .and _ _ => .and
  | .xor _ _ => .xor
  | .add _ _ => .add

/-- The instruction an operation makes of the decoded fields: which fields each format uses (30_encoding.md R73). -/
def Op.instr (o : Op) (f : Fields) : Instr :=
  match o with
  | .halt => .halt
  | .ret => .ret
  | .call => .call f.addr
  | .se => .se f.x f.kk
  | .sne => .sne f.x f.kk
  | .ldImm => .ldImm f.x f.kk
  | .addn => .addn f.x f.d
  | .ldReg => .ldReg f.x f.y
  | .or => .or f.x f.y
  | .and => .and f.x f.y
  | .xor => .xor f.x f.y
  | .add => .add f.x f.y

/-- One row of the dispatch table (30_encoding.md R85). -/
structure Row where
  op : Op
  pat : Word
  mask : Word
  deriving DecidableEq, Repr

/-- A word selects a row when `(op & mask) == match` (30_encoding.md R85). -/
def Row.selects (r : Row) (w : Word) : Bool :=
  w &&& r.mask == r.pat

/-- The dispatch table, in the source's order (30_encoding.md R85). -/
def dispatchTable : List Row :=
  [⟨.halt, 0x0000, 0xFFFF⟩, ⟨.ret, 0x00EE, 0xFFFF⟩, ⟨.call, 0x2000, 0xF000⟩, ⟨.se, 0x3000, 0xF000⟩,
   ⟨.sne, 0x4000, 0xF000⟩, ⟨.ldImm, 0x6000, 0xF000⟩, ⟨.addn, 0x7000, 0xF000⟩, ⟨.ldReg, 0x8000, 0xF00F⟩,
   ⟨.or, 0x8001, 0xF00F⟩, ⟨.and, 0x8002, 0xF00F⟩, ⟨.xor, 0x8003, 0xF00F⟩, ⟨.add, 0x8004, 0xF00F⟩]

/-- Dispatch of one word: the row it selects, with the decoded fields; none where no row matches, which is
UnimplementedOpcode (30_encoding.md R84, R87). -/
def decodeWord (w : Word) : Option Instr :=
  (dispatchTable.find? fun r => r.selects w).map fun r => r.op.instr (Fields.ofWord w)

/-- Why bytes are no instruction. -/
inductive DecodeError where
  /-- Fewer than the two bytes every instruction has (30_encoding.md R70). -/
  | truncated
  /-- The word matches no row of the dispatch table (30_encoding.md R87). -/
  | unimplemented (op : Word)
  deriving DecidableEq, Repr

/-- The word two consecutive bytes make, the one at the lower address in the high half (20_memory.md R52, R54). -/
def joinBytes (hi lo : Byte) : Word :=
  hi ++ lo

/-- The decoder on bytes, high byte first (30_encoding.md R70, 20_memory.md R54), total, with the rest of the list. -/
def decode : List Byte → Except DecodeError (Instr × List Byte)
  | hi :: lo :: rest =>
    match decodeWord (joinBytes hi lo) with
    | some i => .ok (i, rest)
    | none => .error (.unimplemented (joinBytes hi lo))
  | _ => .error .truncated

/-- The encoder, as 30_encoding.md R90's table writes each word. ADDN's ignored nibble is written 0 (R92). -/
def encode : Instr → Word
  | .halt => 0x0000#16
  | .ret => 0x00EE#16
  | .call addr => 0x2000#16 ||| addr.setWidth 16
  | .se x kk => 0x3000#16 ||| x.setWidth 16 <<< 8 ||| kk.setWidth 16
  | .sne x kk => 0x4000#16 ||| x.setWidth 16 <<< 8 ||| kk.setWidth 16
  | .ldImm x kk => 0x6000#16 ||| x.setWidth 16 <<< 8 ||| kk.setWidth 16
  | .addn x d => 0x7000#16 ||| x.setWidth 16 <<< 8 ||| d.setWidth 16
  | .ldReg x y => 0x8000#16 ||| x.setWidth 16 <<< 8 ||| y.setWidth 16 <<< 4
  | .or x y => 0x8001#16 ||| x.setWidth 16 <<< 8 ||| y.setWidth 16 <<< 4
  | .and x y => 0x8002#16 ||| x.setWidth 16 <<< 8 ||| y.setWidth 16 <<< 4
  | .xor x y => 0x8003#16 ||| x.setWidth 16 <<< 8 ||| y.setWidth 16 <<< 4
  | .add x y => 0x8004#16 ||| x.setWidth 16 <<< 8 ||| y.setWidth 16 <<< 4

/-- The two bytes of a word as memory holds them, most significant first (20_memory.md R54). -/
def wordBytes (w : Word) : List Byte :=
  [w.extractLsb' 8 8, w.extractLsb' 0 8]

/-- The instruction a listing line names by its operation and plain numbers, refused when a number is out of the range of
30_encoding.md R90 (`d` > 15 in R92) or the count of numbers is not the operation's. -/
def assemble (o : Op) (operands : List Nat) : Option Instr :=
  match o, operands with
  | .halt, [] => some .halt
  | .ret, [] => some .ret
  | .call, [a] => if OperandKind.addr.inRange a then some (.call (BitVec.ofNat 12 a)) else none
  | .se, [x, k] =>
    if OperandKind.reg.inRange x && OperandKind.byte.inRange k then some (.se (BitVec.ofNat 4 x) (BitVec.ofNat 8 k)) else none
  | .sne, [x, k] =>
    if OperandKind.reg.inRange x && OperandKind.byte.inRange k then some (.sne (BitVec.ofNat 4 x) (BitVec.ofNat 8 k)) else none
  | .ldImm, [x, k] =>
    if OperandKind.reg.inRange x && OperandKind.byte.inRange k then some (.ldImm (BitVec.ofNat 4 x) (BitVec.ofNat 8 k)) else none
  | .addn, [x, d] =>
    if OperandKind.reg.inRange x && OperandKind.nibble.inRange d then some (.addn (BitVec.ofNat 4 x) (BitVec.ofNat 4 d)) else none
  | .ldReg, [x, y] =>
    if OperandKind.reg.inRange x && OperandKind.reg.inRange y then some (.ldReg (BitVec.ofNat 4 x) (BitVec.ofNat 4 y)) else none
  | .or, [x, y] =>
    if OperandKind.reg.inRange x && OperandKind.reg.inRange y then some (.or (BitVec.ofNat 4 x) (BitVec.ofNat 4 y)) else none
  | .and, [x, y] =>
    if OperandKind.reg.inRange x && OperandKind.reg.inRange y then some (.and (BitVec.ofNat 4 x) (BitVec.ofNat 4 y)) else none
  | .xor, [x, y] =>
    if OperandKind.reg.inRange x && OperandKind.reg.inRange y then some (.xor (BitVec.ofNat 4 x) (BitVec.ofNat 4 y)) else none
  | .add, [x, y] =>
    if OperandKind.reg.inRange x && OperandKind.reg.inRange y then some (.add (BitVec.ofNat 4 x) (BitVec.ofNat 4 y)) else none
  | _, _ => none

/-- The word of an instruction whose bits are `w`, of which the first `nbits` are given and the rest are 0. -/
def tableWord (nbits w : Nat) : Word :=
  BitVec.ofNat 16 (w % 2 ^ nbits)

/-- The instruction the decoder reads from a table row's bits, laid out in memory order. -/
def decodeTableWord (nbits w : Nat) : Option Instr :=
  match decode (wordBytes (tableWord nbits w)) with
  | .ok (i, _) => some i
  | .error _ => none

end Sys2Proof
end

