-- ==== Sys2Proof/Config.lean ====
section
/-! DEFINITION. The fixed parameters of 00_scope.md R7. None is configurable and no value of the block is left open
(93_implementation_defined.md: no value is left as "any value"), so Config holds no opaque constant. ENTRY_PC, the one
open parameter (92_eei_decisions.md D18), is an argument of the launch (Machine/HostPort.lean); its default stands here. -/

namespace Sys2Proof.Config

/-- MEM_SIZE: 4096 bytes, addresses 0x000 to 0xFFF (00_scope.md R7). -/
abbrev memSize : Nat := 4096

/-- STACK_DEPTH: 16 slots (00_scope.md R7). -/
abbrev stackDepth : Nat := 16

/-- FLAG_REG: the register the carry of ADD is written to (00_scope.md R7, 10_state.md R24). -/
abbrev flagReg : Reg := 0xF#4

/-- The last address a fetch may start at: both bytes must be in memory (20_memory.md R53). -/
abbrev lastFetch : Word := 0xFFE#16

/-- The bytes of one instruction, the amount of the advance stage (30_encoding.md R70, R82). -/
abbrev instrBytes : Word := 2#16

/-- ENTRY_PC when the host writes no pc (00_scope.md R7, 70_reset_and_hazards.md R181). -/
abbrev defaultEntryPc : Word := 0x000#16

/-- What a byte the loader did not write reads as (20_memory.md R50). -/
abbrev unwrittenByte : Byte := 0#8

end Sys2Proof.Config
end

