-- ==== Sys2Proof/Machine/State.lean ====
section
/-! DEFINITION. The architectural state of 10_state.md, the reasons the model can stop, and the state after reset. -/

namespace Sys2Proof.Machine

/-- The external memory of 20_memory.md R50 as (address, byte) pairs, in the canonical form of `Memory.wf` (Machine/Ops.lean):
addresses strictly rising and below 0x1000, no byte equal to what an unlisted address reads as (0x00). -/
abbrev Memory := List Host.Cell

/-- The run state (10_state.md R34). -/
inductive RunState where
  /-- After reset: the host may write, no step is taken. -/
  | idle
  /-- Between `start` and the end of the run: the block steps. -/
  | running
  /-- The run ended at HALT (40_control_flow.md R100). -/
  | halted
  /-- The run ended at a fault (60_exceptions.md R155). -/
  | faulted
  deriving DecidableEq, Repr

/-- The four faults of 60_exceptions.md R150. Each is a NEXT state of the model: the spec describes the state it leaves. -/
inductive FaultCause where
  | outOfBoundsFetch
  | unimplementedOpcode
  | stackOverflow
  | stackUnderflow
  deriving DecidableEq, Repr

/-- Everything the spec gives the machine (10_state.md R38's table). -/
structure State where
  /-- V[0x0] to V[0xF]; VF is index 15 (10_state.md R20, R24). -/
  v : Vector Byte 16
  /-- The program counter (10_state.md R27). -/
  pc : Word
  /-- S[0] to S[15], the return-address stack (10_state.md R31). -/
  stack : Vector Word 16
  /-- The stack pointer, number of nested calls (10_state.md R32). -/
  sp : BitVec 5
  /-- The external memory the fetch port reads (20_memory.md R50, 00_scope.md R5). -/
  mem : Memory
  /-- The run state (10_state.md R34). -/
  runState : RunState
  /-- Fault record, cause code (10_state.md R35, 60_exceptions.md R150). -/
  faultKind : BitVec 3
  /-- Fault record, address of the faulting instruction or fetch (10_state.md R35). -/
  faultPc : Word
  /-- Fault record, the faulting word (10_state.md R35). -/
  faultOp : Word
  deriving DecidableEq, Repr

/-- The reasons the model stops where the spec gives no next state. -/
inductive Fault where
  /-- Raised by RET alone, when `sp` holds 17 to 31 and names a slot S does not have. 10_state.md R32 says `sp` is at most 16,
  so no run reaches it (log entry 3). Safe: the model stops where the spec says nothing. -/
  | stackSlotAbsent
  deriving DecidableEq, Repr

/-- The reasons an instruction is refused. -/
inductive Refusal where
  /-- An instruction without a meaning. No arm of exec raises it: all twelve have one. Safe. -/
  | notModelled (mnemonic : String)
  deriving DecidableEq, Repr

/-- The state after reset (10_state.md R38, 70_reset_and_hazards.md R180), with a memory nothing has been loaded into. -/
def State.reset : State where
  v := Vector.replicate 16 0
  pc := Config.defaultEntryPc
  stack := Vector.replicate 16 0
  sp := 0
  mem := []
  runState := .idle
  faultKind := 0
  faultPc := 0
  faultOp := 0

end Sys2Proof.Machine
end

