-- ==== Sys2Proof/Machine/Ops.lean ====
section
/-! DEFINITION. The named operations over memory, registers, program counter, return stack and block status: the one place
each piece of state is read and written. Taking a fault (60_exceptions.md R155) is `State.raise`. -/

namespace Sys2Proof.Machine

/-! ### Memory (20_memory.md R50, 00_scope.md R11) -/

/-- The canonical form from address `lo` on. -/
def Memory.wfFrom (lo : Nat) : Memory → Bool
  | [] => true
  | (k, b) :: rest =>
    decide (lo ≤ k) && decide (k < Config.memSize) && (b != Config.unwrittenByte) && Memory.wfFrom (k + 1) rest

/-- The canonical form: addresses strictly rising inside the address space, no entry an unlisted address would read as. -/
def Memory.wf (m : Memory) : Bool :=
  Memory.wfFrom 0 m

/-- The byte at a key; an unlisted one reads as unwritten (20_memory.md R50). -/
def Memory.get : Memory → Nat → Byte
  | [], _ => Config.unwrittenByte
  | (k, b) :: rest, a => if k = a then b else Memory.get rest a

/-- Write one byte, keeping the canonical form. -/
def Memory.put : Memory → Nat → Byte → Memory
  | [], a, b => if b = Config.unwrittenByte then [] else [(a, b)]
  | (k, c) :: rest, a, b =>
    if a < k then
      if b = Config.unwrittenByte then (k, c) :: rest else (a, b) :: (k, c) :: rest
    else if a = k then
      if b = Config.unwrittenByte then rest else (a, b) :: rest
    else (k, c) :: Memory.put rest a b

/-- The memory of an image whose first byte lies at `lo`, every other byte unwritten (20_memory.md R50). -/
def Memory.ofImageFrom (lo : Nat) : List Byte → Memory
  | [] => []
  | b :: bs =>
    if b = Config.unwrittenByte then Memory.ofImageFrom (lo + 1) bs else (lo, b) :: Memory.ofImageFrom (lo + 1) bs

/-- `MemRead(a, 1)` (00_scope.md R11): total on the 12-bit addresses the fetch port can name. -/
def State.memRead (s : State) (a : Addr) : Byte :=
  Memory.get s.mem a.toNat

/-- The write of one byte of the external memory. Only the loader performs it (00_scope.md R17): no instruction does (20_memory.md R56). -/
def State.memWrite (s : State) (a : Addr) (b : Byte) : State :=
  { s with mem := Memory.put s.mem a.toNat b }

/-! ### Register file (10_state.md R20 to R23) -/

/-- Read V[x]. No register is hard-wired (10_state.md R20). -/
def State.getV (s : State) (x : Reg) : Byte :=
  s.v[x.toNat]'x.isLt

/-- Write V[x]. -/
def State.setV (s : State) (x : Reg) (b : Byte) : State :=
  { s with v := s.v.set x.toNat b x.isLt }

/-! ### Program counter (10_state.md R27) -/

/-- `pc <- target`. -/
def State.setPc (s : State) (target : Word) : State :=
  { s with pc := target }

/-- The advance stage, also the extra 2 of a taken skip (30_encoding.md R82, 41_compare.md R112). -/
def State.advance (s : State) : State :=
  s.setPc (s.pc + Config.instrBytes)

/-- The PC logic of the skip instructions (41_compare.md R113). -/
def State.skipIf (s : State) (c : Bool) : State :=
  if c then s.advance else s

/-! ### Return-address stack controller (10_state.md R31 to R33, 40_control_flow.md R103) -/

/-- Read slot S[j] (the host's view, 00_scope.md R17). -/
def State.getSlot (s : State) (j : BitVec 4) : Word :=
  s.stack[j.toNat]'j.isLt

/-- The push guard: no free slot, in the corrected `>=` form (40_control_flow.md R102, R103). -/
def State.stackFull (s : State) : Bool :=
  decide (Config.stackDepth ≤ s.sp.toNat)

/-- The pop guard: no saved address (40_control_flow.md R101, R103). -/
def State.stackEmpty (s : State) : Bool :=
  s.sp == 0

/-- Push: S[sp] <- value, then sp <- sp + 1 (10_state.md R32). Called only when the stack is not full. -/
def State.push (s : State) (value : Word) : State :=
  { s with stack := s.stack.setIfInBounds s.sp.toNat value, sp := s.sp + 1 }

/-- Pop: sp <- sp - 1, then read S[sp]; the slot is not cleared (10_state.md R32, R33). None where S has no such slot. -/
def State.pop (s : State) : Option (Word × State) :=
  (s.stack[(s.sp - 1).toNat]?).map fun value => (value, { s with sp := s.sp - 1 })

/-! ### Block status (10_state.md R34, R35) -/

/-- The cause code of each fault (60_exceptions.md R150). -/
def FaultCause.code : FaultCause → BitVec 3
  | .outOfBoundsFetch => 1
  | .unimplementedOpcode => 2
  | .stackOverflow => 3
  | .stackUnderflow => 4

/-- FAULT ENTRY (60_exceptions.md R155), applied to the state the step began in, so that every write of the step, the PC
advance included, is discarded: the fault record gets kind, pc and word, and the block is FAULTED. There is no return
from it (R158): only reset leaves FAULTED. -/
def State.raise (s : State) (c : FaultCause) (op : Word) : State :=
  { s with faultKind := c.code, faultPc := s.pc, faultOp := op, runState := .faulted }

/-- `halt`: keeps the step's writes and sets the run state (00_scope.md R12, 40_control_flow.md R100). -/
def State.halt (s : State) : State :=
  { s with runState := .halted }

/-! ### Instruction fetch unit (20_memory.md R52, R53; 00_scope.md R15) -/

/-- The transactions the fetch unit issues: two byte reads, at pc and pc + 1, or none when the fetch is out of bounds. -/
def State.fetchReads (s : State) : List Addr :=
  if s.pc ≤ Config.lastFetch then [s.pc.setWidth 12, (s.pc + 1).setWidth 12] else []

/-- The fetched word, the byte at pc in the high half; none when the fetch is out of bounds. -/
def State.fetch (s : State) : Option Word :=
  match s.fetchReads.map s.memRead with
  | [hi, lo] => some (joinBytes hi lo)
  | _ => none

/-- Store a word where the next fetch reads it, in the fetch unit's byte order. -/
def State.placeWord (s : State) (w : Word) : State :=
  (s.memWrite (s.pc.setWidth 12) (w.extractLsb' 8 8)).memWrite ((s.pc + 1).setWidth 12) (w.extractLsb' 0 8)

/-- `start` as the control port applies it: accepted in IDLE only, no effect in any other state (00_scope.md R16,
70_reset_and_hazards.md R182). -/
def State.start (s : State) : State :=
  match s.runState with
  | .idle => { s with runState := .running }
  | .running => s
  | .halted => s
  | .faulted => s

end Sys2Proof.Machine
end

