-- ==== Sys2Proof/Machine/Flags.lean ====
section
/-! DEFINITION. The one flag of the block, the carry of ADD Vx, Vy (10_state.md R24, R26; 43_register_alu.md R136), and the
comparator, whose result no flag records (41_compare.md R113). -/

namespace Sys2Proof.Machine

/-- The carry-out of the 8-bit unsigned addition: the exact sum is 256 or more (43_register_alu.md R134). -/
def carryOut (a b : Byte) : Bool :=
  decide (256 ≤ a.toNat + b.toNat)

/-- The value VF takes: 1 on carry, else 0 (10_state.md R24). -/
def carryByte (a b : Byte) : Byte :=
  if carryOut a b then 1 else 0

/-- The flag write of ADD (43_register_alu.md R136). -/
def State.setFlag (s : State) (b : Byte) : State :=
  s.setV Config.flagReg b

/-- The comparator: `eq = (V[x] == kk)` on 8-bit unsigned values (41_compare.md R113, the ALU's EQ of 43_register_alu.md R135). -/
def comparator (a b : Byte) : Bool :=
  a == b

end Sys2Proof.Machine
end

