-- ==== Sys2Proof/Machine/Compare.lean ====
section
/-! DEFINITION. SE and SNE (41_compare.md). The comparison writes no register and no flag (R113). -/

namespace Sys2Proof.Machine

/-- SE Vx, kk (41_compare.md R110): skip the next word if equal. -/
def execSe (x : Reg) (kk : Byte) (s : State) : Host.Outcome State Fault Refusal :=
  .next (s.advance.skipIf (comparator (s.getV x) kk))

/-- SNE Vx, kk (41_compare.md R111): skip the next word if not equal. -/
def execSne (x : Reg) (kk : Byte) (s : State) : Host.Outcome State Fault Refusal :=
  .next (s.advance.skipIf (!comparator (s.getV x) kk))

end Sys2Proof.Machine
end

