-- ==== Sys2Proof/Machine/Operands.lean ====
section
/-! DEFINITION. The operand forms of 30_encoding.md R74 and R75. No immediate is sign-extended, scaled or shifted. A register
operand is `State.getV`; a byte immediate `kk` is used as it is. -/

namespace Sys2Proof.Machine

/-- `zext_8(d)`, the second adder operand of ADDN (30_encoding.md R74, 42_immediate.md R122). -/
def nibbleOperand (d : Nibble) : Byte :=
  d.setWidth 8

/-- `zext_16(addr)`, the target of CALL (30_encoding.md R74, 40_control_flow.md R102). -/
def targetOperand (addr : Addr) : Word :=
  addr.setWidth 16

end Sys2Proof.Machine
end

