-- ==== Sys2Proof/Machine/ControlFlow.lean ====
section
/-! DEFINITION. HALT, RET, CALL (40_control_flow.md). A meaning is given the state at fetch, whose pc is the instruction's
address `a`; it performs the advance stage itself (30_encoding.md R82), so a fault discards it by starting from that state. -/

namespace Sys2Proof.Machine

/-- HALT (40_control_flow.md R100): pc stays a + 2 and the block is HALTED. -/
def execHalt (s : State) : Host.Outcome State Fault Refusal :=
  .next s.advance.halt

/-- RET (40_control_flow.md R101): pop into pc, or StackUnderflow on an empty stack (60_exceptions.md R154). -/
def execRet (s : State) : Host.Outcome State Fault Refusal :=
  if s.stackEmpty then .next (s.raise .stackUnderflow (encode .ret))
  else
    match s.advance.pop with
    | some (target, t) => .next (t.setPc target)
    | none => .fault .stackSlotAbsent

/-- CALL addr (40_control_flow.md R102): push the advanced pc and jump, or StackOverflow on a full stack (60_exceptions.md R153). -/
def execCall (addr : Addr) (s : State) : Host.Outcome State Fault Refusal :=
  if s.stackFull then .next (s.raise .stackOverflow (encode (.call addr)))
  else .next ((s.advance.push s.advance.pc).setPc (targetOperand addr))

end Sys2Proof.Machine
end

