-- ==== Sys2Proof/Machine/Alu.lean ====
section
/-! DEFINITION. The fixed ALU of 43_register_alu.md R135. EQ, its sixth function, yields the 1-bit `comparator` of Flags.lean. -/

namespace Sys2Proof.Machine

/-- The functions with an 8-bit result (43_register_alu.md R135). -/
inductive AluFn where
  | passB
  | or
  | and
  | xor
  | add
  deriving DecidableEq, Repr

/-- The 8-bit result of each function on operands A and B (43_register_alu.md R135). The sum wraps modulo 256 (R137). -/
def alu (f : AluFn) (a b : Byte) : Byte :=
  match f with
  | .passB => b
  | .or => a ||| b
  | .and => a &&& b
  | .xor => a ^^^ b
  | .add => a + b

/-- One ALU instruction up to its destination write: advance, read A = V[x], write V[x]. The operand B was read before any
write (10_state.md R22). -/
def State.aluTo (s : State) (f : AluFn) (x : Reg) (b : Byte) : State :=
  s.advance.setV x (alu f (s.getV x) b)

end Sys2Proof.Machine
end

