-- ==== Sys2Proof/Machine/Immediate.lean ====
section
/-! DEFINITION. LD Vx, kk and ADDN Vx, d (42_immediate.md). -/

namespace Sys2Proof.Machine

/-- LD Vx, kk (42_immediate.md R120). -/
def execLdImm (x : Reg) (kk : Byte) (s : State) : Host.Outcome State Fault Refusal :=
  .next (s.aluTo .passB x kk)

/-- ADDN Vx, d (42_immediate.md R121, R122): the sum wraps, the carry-out is discarded, VF is no flag here. -/
def execAddn (x : Reg) (d : Nibble) (s : State) : Host.Outcome State Fault Refusal :=
  .next (s.aluTo .add x (nibbleOperand d))

end Sys2Proof.Machine
end

