-- ==== Sys2Proof/Machine/RegisterAlu.lean ====
section
/-! DEFINITION. The register-register operations of format XYF (43_register_alu.md): `vx` and `vy` are read before any write. -/

namespace Sys2Proof.Machine

/-- LD Vx, Vy (43_register_alu.md R130). -/
def execLdReg (x y : Reg) (s : State) : Host.Outcome State Fault Refusal :=
  .next (s.aluTo .passB x (s.getV y))

/-- OR Vx, Vy (43_register_alu.md R131). -/
def execOr (x y : Reg) (s : State) : Host.Outcome State Fault Refusal :=
  .next (s.aluTo .or x (s.getV y))

/-- AND Vx, Vy (43_register_alu.md R132). -/
def execAnd (x y : Reg) (s : State) : Host.Outcome State Fault Refusal :=
  .next (s.aluTo .and x (s.getV y))

/-- XOR Vx, Vy (43_register_alu.md R133). -/
def execXor (x y : Reg) (s : State) : Host.Outcome State Fault Refusal :=
  .next (s.aluTo .xor x (s.getV y))

/-- ADD Vx, Vy (43_register_alu.md R134): the destination write, then the flag write, which remains when x = 0xF (R136). -/
def execAdd (x y : Reg) (s : State) : Host.Outcome State Fault Refusal :=
  .next ((s.aluTo .add x (s.getV y)).setFlag (carryByte (s.getV x) (s.getV y)))

end Sys2Proof.Machine
end

