-- ==== Sys2Proof/Machine/Cycle.lean ====
section
/-! DEFINITION. The instruction cycle of a RUNNING block (30_encoding.md R81 to R84), in the stage order that fixes the priority
of faults (60_exceptions.md R157). -/

namespace Sys2Proof.Machine

/-- Fetch, decode, dispatch, execute. The advance stage is performed by each meaning (ControlFlow.lean's header), and a fault
at fetch or dispatch leaves pc at the address fetched from (60_exceptions.md R151, R152, R155). -/
def State.cycle (s : State) : Host.Outcome State Fault Refusal :=
  match s.fetch with
  | none => .next (s.raise .outOfBoundsFetch 0x0000)
  | some op =>
    match decodeWord op with
    | none => .next (s.raise .unimplementedOpcode op)
    | some i => exec i s

/-- One step of the block: a cycle while RUNNING, and none in any other run state, which leaves the state as it is
(30_encoding.md R80, 10_state.md R34; log entry 1). -/
def State.stepBlock (s : State) : Host.Outcome State Fault Refusal :=
  match s.runState with
  | .running => s.cycle
  | .idle => .next s
  | .halted => .next s
  | .faulted => .next s

/-- The state with a word placed where the next fetch reads it and the block RUNNING, standing for the load and the start of
70_reset_and_hazards.md R182 (log entry 2). -/
def State.loadedWith (s : State) (w : Word) : State :=
  { s.placeWord w with runState := .running }

end Sys2Proof.Machine
end

