-- ==== Sys2Proof/Machine/Step.lean ====
section
/-! DEFINITION. The step of the block and the placing of one instruction where it fetches next. -/

namespace Sys2Proof.Machine

/-- One step is one whole instruction (00_scope.md R12, 70_reset_and_hazards.md R190). -/
def step : State → Host.Outcome State Fault Refusal :=
  State.stepBlock

/-- `s` about to run the instruction whose bits are `w` (log entry 2). -/
def State.withFetchWord (s : State) (nbits w : Nat) : State :=
  s.loadedWith (tableWord nbits w)

end Sys2Proof.Machine
end

