-- ==== Sys2Proof/Machine/HostPort.lean ====
section
/-! DEFINITION. The host control port and the host state port (00_scope.md R16, R17): what the world outside the block can do
to it and see of it, and the launch sequence of 70_reset_and_hazards.md R182. None of it is a step of the block. -/

namespace Sys2Proof.Machine

/-- The transactions of the host and its loader (00_scope.md R16, R17; 70_reset_and_hazards.md R182). sp and S have none. -/
inductive HostAction where
  /-- The `reset` input. -/
  | reset
  /-- The `start` input. -/
  | start
  /-- A register preset. -/
  | writeV (x : Reg) (b : Byte)
  /-- The entry PC, ENTRY_PC (92_eei_decisions.md D18). -/
  | writePc (entry : Word)
  /-- One byte of the memory. -/
  | writeMem (a : Addr) (b : Byte)
  /-- A whole image from address 0x000, every byte it does not cover 0x00 (20_memory.md R50). -/
  | loadImage (image : List Byte)
  deriving DecidableEq, Repr

/-- Reset of the block in any run state (70_reset_and_hazards.md R180, 60_exceptions.md R161): every register of R38's table,
and the external memory left alone (92_eei_decisions.md D22). -/
def State.hostReset (s : State) : State :=
  { State.reset with mem := s.mem }

/-- The state port's write gate: a write is admitted while IDLE and in no other run state (00_scope.md R17,
70_reset_and_hazards.md R191). -/
def State.whileIdle (s : State) (t : State) : Option State :=
  match s.runState with
  | .idle => some t
  | .running => none
  | .halted => none
  | .faulted => none

/-- The state after a host transaction; none where the spec admits no such move (70_reset_and_hazards.md R191, log entry 7).
`start` outside IDLE is a move without effect (R182). -/
def HostAction.apply (act : HostAction) (s : State) : Option State :=
  match act with
  | .reset => some s.hostReset
  | .start => some s.start
  | .writeV x b => s.whileIdle (s.setV x b)
  | .writePc entry => s.whileIdle (s.setPc entry)
  | .writeMem a b => s.whileIdle (s.memWrite a b)
  | .loadImage image =>
    if image.length ≤ Config.memSize then s.whileIdle { s with mem := Memory.ofImageFrom 0 image } else none

/-- Host transactions in order. -/
def HostAction.applyAll : List HostAction → State → Option State
  | [], s => some s
  | act :: rest, s =>
    match act.apply s with
    | some t => HostAction.applyAll rest t
    | none => none

/-- The launch of 70_reset_and_hazards.md R182 from a reset block: image, register presets, ENTRY_PC if the host writes one
(else pc keeps its reset value, the default of R181), start. None where the image does not fit the memory. -/
def launch (image : List Byte) (presets : List (Reg × Byte)) (entry : Option Word) : Option State :=
  HostAction.applyAll
    ([.reset, .loadImage image] ++ presets.map (fun p => .writeV p.1 p.2) ++ entry.toList.map .writePc ++ [.start])
    State.reset

/-- The control port's outputs, always visible (00_scope.md R16). -/
def State.outputs (s : State) : RunState × BitVec 3 × Word × Word :=
  (s.runState, s.faultKind, s.faultPc, s.faultOp)

/-- What the state port lets the host read (00_scope.md R17). -/
structure HostView where
  v : Vector Byte 16
  pc : Word
  sp : BitVec 5
  stack : Vector Word 16
  mem : Memory
  deriving DecidableEq, Repr

/-- The state port's read: all of it in IDLE, HALTED and FAULTED, nothing while RUNNING (00_scope.md R17). -/
def State.hostView (s : State) : Option HostView :=
  match s.runState with
  | .running => none
  | .idle => some ⟨s.v, s.pc, s.sp, s.stack, s.mem⟩
  | .halted => some ⟨s.v, s.pc, s.sp, s.stack, s.mem⟩
  | .faulted => some ⟨s.v, s.pc, s.sp, s.stack, s.mem⟩

end Sys2Proof.Machine
end

