-- ==== Sys2Proof/Machine/Execution.lean ====
section
/-! DEFINITION. Executions of the block with its host, and the one property of time the spec gives them, weak fairness of the
block (70_reset_and_hazards.md R190; log entry 17). -/

namespace Sys2Proof.Machine

/-- One move of the whole system: a step of its one executing agent, the block (60_exceptions.md R165), or a transaction of the
host. -/
inductive Move where
  | block
  | host (act : HostAction)
  deriving DecidableEq, Repr

/-- The state after a move; none where the move cannot be made. A block move outside RUNNING leaves the state as it is (log
entry 1), so an execution can go on without an end after a run has ended. -/
def Move.apply (move : Move) (s : State) : Option State :=
  match move with
  | .block =>
    match step s with
    | .next t => some t
    | .fault _ => none
    | .refused _ => none
  | .host act => act.apply s

/-- An execution: in the n-th state the n-th move is made, and gives the next state. The moves come in any order that the host
port's gate admits (70_reset_and_hazards.md R191; log entry 13). -/
def IsExecution (states : Nat → State) (moves : Nat → Move) : Prop :=
  ∀ n, (moves n).apply (states n) = some (states (n + 1))

/-- The block takes its step at the n-th move: it is RUNNING there (30_encoding.md R80) and the move is its own. -/
def BlockStepsAt (states : Nat → State) (moves : Nat → Move) (n : Nat) : Prop :=
  (states n).runState = .running ∧ moves n = .block

/-- WEAK FAIRNESS of the block (70_reset_and_hazards.md R190; 92_eei_decisions.md D16): a block that is RUNNING from some move
on takes a step after it. Applied again past that step, it steps without end for as long as it stays RUNNING. -/
def WeaklyFair (states : Nat → State) (moves : Nat → Move) : Prop :=
  ∀ n, (∀ m, n ≤ m → (states m).runState = .running) → ∃ m, n ≤ m ∧ BlockStepsAt states moves m

end Sys2Proof.Machine
end

