-- ==== Sys2Proof/Safety.lean ====
section
/-! DEFINITION. What counts as a safe state and a safe run, in the terms the statements use. -/

namespace Sys2Proof.Machine

/-- The word a fetch at address `a` reads; none where the fetch is out of bounds (20_memory.md R52, R53). -/
def State.wordAt (s : State) (a : Word) : Option Word :=
  (s.setPc a).fetch

/-- The run has ended, normally or at a fault (70_reset_and_hazards.md R184). -/
def State.ended (s : State) : Prop :=
  s.runState = .halted ∨ s.runState = .faulted

/-- The fault record says why the state is FAULTED, and is clear in every other run state (10_state.md R35; 60_exceptions.md
R150, R155). -/
def State.recordExact (s : State) : Prop :=
  match s.runState with
  | .faulted =>
    s.faultPc = s.pc ∧
      ((s.faultKind = 1 ∧ s.faultOp = 0x0000 ∧ 0xFFE < s.pc.toNat) ∨
       (s.faultKind = 2 ∧ s.wordAt s.pc = some s.faultOp ∧ decodeWord s.faultOp = none) ∨
       (s.faultKind = 3 ∧ s.wordAt s.pc = some s.faultOp ∧ (∃ addr, decodeWord s.faultOp = some (.call addr)) ∧ s.sp = 16) ∨
       (s.faultKind = 4 ∧ s.wordAt s.pc = some 0x00EE ∧ s.faultOp = 0x00EE ∧ s.sp = 0))
  | .idle => s.faultKind = 0 ∧ s.faultPc = 0 ∧ s.faultOp = 0
  | .running => s.faultKind = 0 ∧ s.faultPc = 0 ∧ s.faultOp = 0
  | .halted => s.faultKind = 0 ∧ s.faultPc = 0 ∧ s.faultOp = 0

/-- The invariant of the block: what every reachable state meets. -/
structure State.Inv (s : State) : Prop where
  /-- The memory is in its canonical form, inside the 4096-byte address space (20_memory.md R50). -/
  memory : Memory.wf s.mem = true
  /-- `0 <= stack_pointer <= 16` (10_state.md R32). -/
  depth : s.sp.toNat ≤ 16
  /-- Every slot holds 0 from reset or an advanced pc, at most 0x1000 (10_state.md R29). -/
  slots : ∀ j, (s.getSlot j).toNat ≤ 0x1000
  /-- The stack is empty and zero until `start` (10_state.md R39). -/
  entry : s.runState = .idle → s.sp = 0 ∧ ∀ j, s.getSlot j = 0
  /-- HALTED is entered only by the word 0x0000, and pc is two past it (70_reset_and_hazards.md R184). -/
  halt : s.runState = .halted → s.wordAt (s.pc - 2) = some 0x0000
  /-- The fault record is exact. -/
  record : s.recordExact

/-- The states the block and the host can bring the machine to, in any interleaving the spec admits (10_state.md R34;
00_scope.md R16, R17; 70_reset_and_hazards.md R191). Which states can occur; that the block goes on is WeaklyFair's to say
(Execution.lean). -/
inductive Reachable : State → Prop where
  | reset : Reachable State.reset
  | step {s t : State} : Reachable s → step s = .next t → Reachable t
  | host {s t : State} (act : HostAction) : Reachable s → act.apply s = some t → Reachable t

/-! ### Frames: what an instruction leaves as it was -/

/-- No general register changed. -/
def SameRegs (s t : State) : Prop :=
  ∀ r, t.getV r = s.getV r

/-- No general register but `x` changed. -/
def SameRegsBut (x : Reg) (s t : State) : Prop :=
  ∀ r, r ≠ x → t.getV r = s.getV r

/-- Neither `sp` nor any slot of S changed. -/
def SameStack (s t : State) : Prop :=
  t.sp = s.sp ∧ ∀ j, t.getSlot j = s.getSlot j

/-- No byte of the memory changed. -/
def SameMemory (s t : State) : Prop :=
  ∀ a, t.memRead a = s.memRead a

/-- The fault record did not change. -/
def SameRecord (s t : State) : Prop :=
  t.faultKind = s.faultKind ∧ t.faultPc = s.faultPc ∧ t.faultOp = s.faultOp

/-- Neither the run state nor the fault record changed. -/
def SameStatus (s t : State) : Prop :=
  t.runState = s.runState ∧ SameRecord s t

/-- The frame of an instruction that only moves pc and writes registers (10_state.md R21, R32; 20_memory.md R56). -/
def SameBesidesRegsAndPc (s t : State) : Prop :=
  SameStack s t ∧ SameMemory s t ∧ SameStatus s t

/-- FAULTED at the state `s`, exactly that state plus the fault record (60_exceptions.md R155). -/
def FaultedFrom (s t : State) (kind : BitVec 3) (op : Word) : Prop :=
  t.runState = .faulted ∧ t.faultKind = kind ∧ t.faultPc = s.pc ∧ t.faultOp = op ∧
    t.pc = s.pc ∧ SameRegs s t ∧ SameStack s t ∧ SameMemory s t

end Sys2Proof.Machine
end

