-- ==== Sys2Proof/Certificates/Slice0/Obligations.lean ====
section
/-! DEFINITION. The statements for the provers. Each docstring names the rules of spec/ it formalises. -/

open Sys2Proof Sys2Proof.Machine

/-! ### Encoding and decoding -/

/-- The words 30_encoding.md and 95_test_vectors.md (W9, FD6 to FD12, Part 2) write out, one or more for each row of the
dispatch table, decode to the instruction they stand for, and the words FD10 to FD12 list to none. -/
def Obligations.SpecWordsDecode : Prop :=
  decodeTableWord 16 0x0000 = some .halt ∧ decodeTableWord 16 0x00EE = some .ret ∧
  decodeTableWord 16 0x2ABC = some (.call 0xABC) ∧ decodeTableWord 16 0x3342 = some (.se 0x3 0x42) ∧
  decodeTableWord 16 0x4341 = some (.sne 0x3 0x41) ∧ decodeTableWord 16 0x6A7F = some (.ldImm 0xA 0x7F) ∧
  decodeTableWord 16 0x7125 = some (.addn 0x1 5) ∧ decodeTableWord 16 0x7105 = some (.addn 0x1 5) ∧
  decodeTableWord 16 0x71F5 = some (.addn 0x1 5) ∧ decodeTableWord 16 0x84F0 = some (.ldReg 0x4 0xF) ∧
  decodeTableWord 16 0x8121 = some (.or 0x1 0x2) ∧ decodeTableWord 16 0x8322 = some (.and 0x3 0x2) ∧
  decodeTableWord 16 0x8123 = some (.xor 0x1 0x2) ∧ decodeTableWord 16 0x8014 = some (.add 0x0 0x1) ∧
  ∀ w ∈ [0x00E0, 0x0001, 0x00EF, 0x0FFF, 0x1200, 0x5120, 0x9120, 0xA123, 0xF00F, 0xFFFF, 0x8125, 0x8126, 0x812E, 0x812F],
    decodeTableWord 16 w = none

/-- DECODE AFTER ENCODE: the two bytes of every well-formed instruction's word, most significant first, decode to that
instruction with every operand, whatever bytes follow (30_encoding.md sections 1, 4 and 6; 20_memory.md section 3). -/
def Obligations.DecodeAfterEncode : Prop :=
  ∀ (i : Instr) (rest : List Byte), i.wellFormed = true → decode (wordBytes (encode i) ++ rest) = .ok (i, rest)

/-- ENCODE AFTER DECODE: a word that decodes is the word its instruction is encoded as, but for ADDN's ignored bits 7:4,
which the encoding writes 0 (30_encoding.md R85, R92). -/
def Obligations.EncodeAfterDecode : Prop :=
  ∀ (w : Word) (i : Instr), decodeWord w = some i → encode i = if i.op = .addn then w &&& 0xFF0F#16 else w

/-- 30_encoding.md R86: no word matches two rows, so the order in which a decoder tests them does not matter; 0x0000 is HALT
only, 0x00EE is RET only, and no other family-0x0 word is implemented. -/
def Obligations.DispatchRowsDisjoint : Prop :=
  (∀ (w : Word), ∀ r ∈ dispatchTable, ∀ r' ∈ dispatchTable, r.selects w = true → r'.selects w = true → r = r') ∧
  (∀ (w : Word) (rows : List Row), rows.Perm dispatchTable →
    rows.find? (fun r => r.selects w) = dispatchTable.find? (fun r => r.selects w)) ∧
  decodeWord 0x0000 = some .halt ∧ decodeWord 0x00EE = some .ret ∧
  ∀ (w : Word), w.toNat < 0x1000 → w ≠ 0x0000 → w ≠ 0x00EE → decodeWord w = none

/-- The list of illegal words in 30_encoding.md R87, by family and function nibble. -/
def Obligations.IllegalWordsAreTheListed : Prop :=
  ∀ (w : Word), decodeWord w = none ↔
    ((1 ≤ w.toNat ∧ w.toNat ≤ 0x00ED) ∨ (0x00EF ≤ w.toNat ∧ w.toNat ≤ 0x0FFF) ∨ (0x1000 ≤ w.toNat ∧ w.toNat ≤ 0x1FFF) ∨
     (0x5000 ≤ w.toNat ∧ w.toNat ≤ 0x5FFF) ∨ (0x8000 ≤ w.toNat ∧ w.toNat ≤ 0x8FFF ∧ 5 ≤ w.toNat % 16) ∨ 0x9000 ≤ w.toNat)

/-- 30_encoding.md R92: ADDN is encoded with 0 in bits 7:4 and a `d` above 15 is refused; a decoder gives all sixteen values of
bits 7:4 the same meaning. -/
def Obligations.AddnIgnoresSecondNibble : Prop :=
  (∀ (x : Reg) (d : Nibble), (encode (.addn x d)).extractLsb' 4 4 = 0) ∧
  (∀ (x n : Nat), 15 < n → assemble .addn [x, n] = none) ∧
  ∀ (x y d : BitVec 4),
    decodeWord (0x7000#16 ||| x.setWidth 16 <<< 8 ||| y.setWidth 16 <<< 4 ||| d.setWidth 16) = some (.addn x d)

/-- The nibble layout of 30_encoding.md R71 and R73 in numbers: family, x, y or the high nibble of kk, function or d. -/
def Obligations.EncodedNibbleLayout : Prop :=
  (∀ addr, (encode (.call addr)).toNat = 0x2000 + addr.toNat) ∧
  (∀ x kk, (encode (.se x kk)).toNat = 0x3000 + x.toNat * 256 + kk.toNat) ∧
  (∀ x kk, (encode (.sne x kk)).toNat = 0x4000 + x.toNat * 256 + kk.toNat) ∧
  (∀ x kk, (encode (.ldImm x kk)).toNat = 0x6000 + x.toNat * 256 + kk.toNat) ∧
  (∀ x d, (encode (.addn x d)).toNat = 0x7000 + x.toNat * 256 + d.toNat) ∧
  (∀ x y, (encode (.ldReg x y)).toNat = 0x8000 + x.toNat * 256 + y.toNat * 16) ∧
  (∀ x y, (encode (.or x y)).toNat = 0x8000 + x.toNat * 256 + y.toNat * 16 + 1) ∧
  (∀ x y, (encode (.and x y)).toNat = 0x8000 + x.toNat * 256 + y.toNat * 16 + 2) ∧
  (∀ x y, (encode (.xor x y)).toNat = 0x8000 + x.toNat * 256 + y.toNat * 16 + 3) ∧
  ∀ x y, (encode (.add x y)).toNat = 0x8000 + x.toNat * 256 + y.toNat * 16 + 4

/-- The operand numbers a listing writes (30_encoding.md R90): every instruction is written by its own operands, and what is
accepted is an instruction of the named operation with exactly the written numbers, so a number out of range is refused. -/
def Obligations.AssemblerTakesOperandsInRange : Prop :=
  (∀ (i : Instr), assemble i.op (i.operands.map Prod.snd) = some i) ∧
  ∀ (o : Op) (operands : List Nat) (i : Instr), assemble o operands = some i → i.op = o ∧ i.operands.map Prod.snd = operands

/-! ### Fetch, dispatch and the step -/

/-- 20_memory.md R52 with the transactions of 00_scope.md R15: in bounds, two byte reads at pc and pc + 1, the first in the
high half; out of bounds, no read and no word. -/
def Obligations.FetchReadsTwoBytesBigEndian : Prop :=
  ∀ (s : State),
    (s.pc.toNat ≤ 0xFFE → ∃ (a b : Addr) (op : Word), a.toNat = s.pc.toNat ∧ b.toNat = s.pc.toNat + 1 ∧
      s.fetchReads = [a, b] ∧ s.fetch = some op ∧ op.toNat = (s.memRead a).toNat * 256 + (s.memRead b).toNat) ∧
    (0xFFE < s.pc.toNat → s.fetchReads = [] ∧ s.fetch = none)

/-- 60_exceptions.md R151: a fetch with pc above 0xFFE reads nothing and raises OutOfBoundsFetch. -/
def Obligations.OutOfBoundsFetchFaults : Prop :=
  ∀ (s : State), s.runState = .running → 0xFFE < s.pc.toNat →
    s.fetchReads = [] ∧ ∃ t, step s = .next t ∧ FaultedFrom s t 1 0x0000

/-- 60_exceptions.md R152: a fetched word that matches no row raises UnimplementedOpcode, and the advance is discarded. -/
def Obligations.UnimplementedOpcodeFaults : Prop :=
  ∀ (s : State) (op : Word), s.runState = .running → s.fetch = some op → (∀ r ∈ dispatchTable, r.selects op = false) →
    ∃ t, step s = .next t ∧ FaultedFrom s t 2 op

/-- A STEP RUNS THE DECODED INSTRUCTION (30_encoding.md R81 to R84): while RUNNING, when the two bytes at pc make a word that
decodes to i, the step is exec of i at that state, with nothing around it: exec performs the advance itself. -/
def Obligations.StepRunsDecodedInstruction : Prop :=
  ∀ (s : State) (i : Instr), s.runState = .running → s.pc.toNat ≤ 0xFFE → i.wellFormed = true →
    decodeWord (joinBytes (s.memRead (s.pc.setWidth 12)) (s.memRead ((s.pc + 1).setWidth 12))) = some i →
    step s = exec i s

/-- No step is taken in any run state but RUNNING (30_encoding.md R80): the model's step leaves the whole state as it is, which
is the model's own form of it (log entry 1). -/
def Obligations.NoStepUnlessRunning : Prop :=
  ∀ (s : State), s.runState ≠ .running → step s = .next s

/-- The host's placing of a word: what step runs next is what the decoder reads from that word (log entry 2). -/
def Obligations.PlacedWordIsFetched : Prop :=
  ∀ (s : State) (w : Nat), w < 0x10000 → s.pc.toNat ≤ 0xFFE → Memory.wf s.mem = true →
    (s.withFetchWord 16 w).fetch = some (BitVec.ofNat 16 w) ∧
    decodeTableWord 16 w = decodeWord (BitVec.ofNat 16 w) ∧
    ∀ i, decodeTableWord 16 w = some i → step (s.withFetchWord 16 w) = exec i (s.withFetchWord 16 w)

/-! ### The instructions: result, completion and frame -/

/-- 40_control_flow.md R100: HALT is exactly 0x0000; pc ends past it, the block is HALTED and nothing else changes. That the
model's step then answers the HALTED state unchanged is the model's choice (log entry 1). -/
def Obligations.HaltEndsTheRun : Prop :=
  (∀ (w : Word), decodeWord w = some .halt ↔ w = 0x0000) ∧
  ∀ (s : State), ∃ t, exec .halt s = .next t ∧ t.runState = .halted ∧ t.pc = s.pc + 2 ∧
    SameRegs s t ∧ SameStack s t ∧ SameMemory s t ∧ SameRecord s t ∧ step t = .next t

/-- 40_control_flow.md R101 and 60_exceptions.md R154: RET is exactly 0x00EE; with a saved address it pops it into pc, whole and
unchecked, and leaves the slot; on an empty stack it raises StackUnderflow. -/
def Obligations.ReturnPopsOrUnderflows : Prop :=
  (∀ (w : Word), decodeWord w = some .ret ↔ w = 0x00EE) ∧
  (∀ (s : State), 1 ≤ s.sp.toNat → s.sp.toNat ≤ 16 → ∃ t, exec .ret s = .next t ∧ t.sp.toNat + 1 = s.sp.toNat ∧
    (∀ j, j.toNat + 1 = s.sp.toNat → t.pc = s.getSlot j) ∧
    (∀ j, t.getSlot j = s.getSlot j) ∧ SameRegs s t ∧ SameMemory s t ∧ SameStatus s t) ∧
  ∀ (s : State), s.sp = 0 → ∃ t, exec .ret s = .next t ∧ FaultedFrom s t 4 0x00EE

/-- 40_control_flow.md R102 and 60_exceptions.md R153: CALL is family 0x2; with a free slot it pushes the advanced pc and jumps
to the 12-bit target; on a full stack it raises StackOverflow with no slot written. -/
def Obligations.CallPushesOrOverflows : Prop :=
  (∀ (w : Word) (addr : Addr), decodeWord w = some (.call addr) ↔ w.toNat = 0x2000 + addr.toNat) ∧
  (∀ (addr : Addr) (s : State), s.sp.toNat < 16 → ∃ t, exec (.call addr) s = .next t ∧ t.sp.toNat = s.sp.toNat + 1 ∧
    t.pc.toNat = addr.toNat ∧
    (∀ j, t.getSlot j = if j.toNat = s.sp.toNat then s.pc + 2 else s.getSlot j) ∧
    SameRegs s t ∧ SameMemory s t ∧ SameStatus s t) ∧
  ∀ (addr : Addr) (s : State), s.sp = 16 →
    ∃ t, exec (.call addr) s = .next t ∧ FaultedFrom s t 3 (0x2000#16 ||| addr.setWidth 16)

/-- 41_compare.md R110, R111 and R113: SE and SNE by the one comparison, pc by 4 or 2, no register and no flag written. -/
def Obligations.SkipsCompareAndMoveOnlyPc : Prop :=
  (∀ (w : Word) (x : Reg) (kk : Byte), decodeWord w = some (.se x kk) ↔ w.toNat = 0x3000 + x.toNat * 256 + kk.toNat) ∧
  (∀ (w : Word) (x : Reg) (kk : Byte), decodeWord w = some (.sne x kk) ↔ w.toNat = 0x4000 + x.toNat * 256 + kk.toNat) ∧
  ∀ (x : Reg) (kk : Byte) (s : State), ∃ t u, exec (.se x kk) s = .next t ∧ exec (.sne x kk) s = .next u ∧
    t.pc = (if s.getV x = kk then s.pc + 4 else s.pc + 2) ∧ u.pc = (if s.getV x = kk then s.pc + 2 else s.pc + 4) ∧
    SameRegs s t ∧ SameBesidesRegsAndPc s t ∧ SameRegs s u ∧ SameBesidesRegsAndPc s u

/-- 42_immediate.md R120: LD Vx, kk. -/
def Obligations.LoadImmediateWritesByte : Prop :=
  (∀ (w : Word) (x : Reg) (kk : Byte), decodeWord w = some (.ldImm x kk) ↔ w.toNat = 0x6000 + x.toNat * 256 + kk.toNat) ∧
  ∀ (x : Reg) (kk : Byte) (s : State), ∃ t, exec (.ldImm x kk) s = .next t ∧ t.getV x = kk ∧
    SameRegsBut x s t ∧ t.pc = s.pc + 2 ∧ SameBesidesRegsAndPc s t

/-- 42_immediate.md R121: ADDN Vx, d adds bits 3:0, wraps modulo 256, and writes no flag; bits 7:4 of the word are ignored. -/
def Obligations.AddNibbleWrapsWithoutFlag : Prop :=
  (∀ (w : Word) (x : Reg) (d : Nibble),
    decodeWord w = some (.addn x d) ↔ ∃ y : BitVec 4, w.toNat = 0x7000 + x.toNat * 256 + y.toNat * 16 + d.toNat) ∧
  ∀ (x : Reg) (d : Nibble) (s : State), ∃ t, exec (.addn x d) s = .next t ∧
    (t.getV x).toNat = ((s.getV x).toNat + d.toNat) % 256 ∧
    SameRegsBut x s t ∧ t.pc = s.pc + 2 ∧ SameBesidesRegsAndPc s t

/-- 43_register_alu.md R130 to R133: register copy and the bitwise operations, on the operands read before the write. -/
def Obligations.CopyAndLogicResults : Prop :=
  ∀ (x y : Reg),
    (∀ (w : Word), (decodeWord w = some (.ldReg x y) ↔ w.toNat = 0x8000 + x.toNat * 256 + y.toNat * 16) ∧
      (decodeWord w = some (.or x y) ↔ w.toNat = 0x8001 + x.toNat * 256 + y.toNat * 16) ∧
      (decodeWord w = some (.and x y) ↔ w.toNat = 0x8002 + x.toNat * 256 + y.toNat * 16) ∧
      (decodeWord w = some (.xor x y) ↔ w.toNat = 0x8003 + x.toNat * 256 + y.toNat * 16)) ∧
    ∀ (s : State), ∃ c o a e : State,
      exec (.ldReg x y) s = .next c ∧ exec (.or x y) s = .next o ∧ exec (.and x y) s = .next a ∧ exec (.xor x y) s = .next e ∧
      c.getV x = s.getV y ∧ o.getV x = s.getV x ||| s.getV y ∧ a.getV x = s.getV x &&& s.getV y ∧
      e.getV x = s.getV x ^^^ s.getV y ∧
      ∀ t ∈ [c, o, a, e], SameRegsBut x s t ∧ t.pc = s.pc + 2 ∧ SameBesidesRegsAndPc s t

/-- 43_register_alu.md R134: ADD Vx, Vy wraps, and VF is always written, last, with the carry, so it wins when x = 0xF. -/
def Obligations.AddWrapsAndSetsCarry : Prop :=
  (∀ (w : Word) (x y : Reg), decodeWord w = some (.add x y) ↔ w.toNat = 0x8004 + x.toNat * 256 + y.toNat * 16) ∧
  ∀ (x y : Reg) (s : State), ∃ t, exec (.add x y) s = .next t ∧
    (x ≠ 0xF → (t.getV x).toNat = ((s.getV x).toNat + (s.getV y).toNat) % 256) ∧
    t.getV 0xF = (if 256 ≤ (s.getV x).toNat + (s.getV y).toNat then 1 else 0) ∧
    (∀ r, r ≠ x → r ≠ 0xF → t.getV r = s.getV r) ∧ t.pc = s.pc + 2 ∧ SameBesidesRegsAndPc s t

/-! ### Whole-machine rules -/

/-- 10_state.md R21 and R25: an instruction writes only its first register operand, HALT, RET, CALL, SE and SNE none, and ADD also
VF; so VF changes only by ADD or as a named destination. -/
def Obligations.OnlyTheDestinationIsWritten : Prop :=
  ∀ (i : Instr) (s t : State) (r : Reg), exec i s = .next t → t.getV r ≠ s.getV r →
    (i.operands.head? = some (.reg, r.toNat) ∧ i.op ≠ .se ∧ i.op ≠ .sne) ∨ (i.op = .add ∧ r = 0xF)

/-- 10_state.md R23 and R24: no instruction takes VF as a condition or carry-in. Whatever VF holds, an instruction that does not
name it does the same to everything else. -/
def Obligations.FlagIsNoImplicitInput : Prop :=
  ∀ (i : Instr) (s t : State) (b : Byte), (OperandKind.reg, 15) ∉ i.operands → exec i s = .next t →
    ∃ u, exec i (s.setV 0xF b) = .next u ∧ u.pc = t.pc ∧ SameRegsBut 0xF t u ∧ SameBesidesRegsAndPc t u

/-- 10_state.md R32 and 40_control_flow.md R103: only CALL and RET change sp, each by exactly 1; only CALL writes a slot, the one
at sp; and sp stays within 0 to 16. -/
def Obligations.StackPointerMovesByOne : Prop :=
  ∀ (s t : State), s.sp.toNat ≤ 16 → step s = .next t →
    t.sp.toNat ≤ 16 ∧
    (t.sp ≠ s.sp → s.runState = .running ∧ ∃ op, s.fetch = some op ∧
      (((∃ addr, decodeWord op = some (.call addr)) ∧ t.sp.toNat = s.sp.toNat + 1) ∨
       (decodeWord op = some .ret ∧ t.sp.toNat + 1 = s.sp.toNat))) ∧
    ∀ j, t.getSlot j ≠ s.getSlot j → j.toNat = s.sp.toNat ∧ t.sp.toNat = s.sp.toNat + 1

/-- 10_state.md R29: from a state whose saved addresses are at most 0x1000, a step that fetches leaves pc at most 0x1002 and the
saved addresses at most 0x1000, so the 16-bit pc never wraps. -/
def Obligations.PcNeverWraps : Prop :=
  ∀ (s t : State), s.runState = .running → s.pc.toNat ≤ 0xFFE → (∀ j, j.toNat < s.sp.toNat → (s.getSlot j).toNat ≤ 0x1000) →
    step s = .next t → t.pc.toNat ≤ 0x1002 ∧ ∀ j, j.toNat < t.sp.toNat → (t.getSlot j).toNat ≤ 0x1000

/-- 20_memory.md R56, R60 and R63: the memory is constant from `start` to the end of the run. No step writes it, and no host
transaction does while RUNNING. -/
def Obligations.MemoryIsConstantInARun : Prop :=
  (∀ (s t : State), step s = .next t → t.mem = s.mem ∧ SameMemory s t) ∧
  ∀ (act : HostAction) (s t : State), s.runState = .running → act.apply s = some t → t.mem = s.mem ∧ SameMemory s t

/-- 30_encoding.md R88, 41_compare.md R112 and 00_scope.md R15: a step sees of the memory only the two bytes it fetches, so a
skipped or never reached word has no effect, whatever bits it holds. -/
def Obligations.StepSeesOnlyTheFetchedBytes : Prop :=
  ∀ (s t : State) (m : Memory),
    (∀ a ∈ s.fetchReads, ({ s with mem := m } : State).memRead a = s.memRead a) →
    step s = .next t → step { s with mem := m } = .next { t with mem := m }

/-- 40_control_flow.md R104: a CALL whose target holds RET resumes, two steps later, at the word after the CALL, at the same depth. -/
def Obligations.CallThenReturnResumesAfterCall : Prop :=
  ∀ (s : State) (op : Word) (addr : Addr), s.runState = .running → s.sp.toNat < 16 → s.fetch = some op →
    decodeWord op = some (.call addr) → s.wordAt (addr.setWidth 16) = some 0x00EE →
    ∃ t, Host.Core.run core 2 s = .next t ∧ t.pc = s.pc + 2 ∧ t.sp = s.sp ∧ SameRegs s t ∧ SameMemory s t ∧ SameStatus s t ∧
      ∀ j, j.toNat ≠ s.sp.toNat → t.getSlot j = s.getSlot j

/-! ### Faults and the end of a run -/

/-- 60_exceptions.md R155: a step that faults leaves exactly the state before it plus the fault record, and the record holds one of
the four faults of R150 under its condition. Two clauses are the model's choice: the step after the fault answers the same state
(log entry 1), and for sp 17 to 31, which R32 excludes, CALL overflows as it does at 16 (log entry 3). -/
def Obligations.FaultsArePrecise : Prop :=
  ∀ (s t : State), s.runState = .running → step s = .next t → t.runState = .faulted →
    ∃ kind op, FaultedFrom s t kind op ∧ t.mem = s.mem ∧ step t = .next t ∧
      ((kind = 1 ∧ op = 0x0000 ∧ 0xFFE < s.pc.toNat) ∨
       (kind = 2 ∧ s.fetch = some op ∧ decodeWord op = none) ∨
       (kind = 3 ∧ s.fetch = some op ∧ (∃ addr, decodeWord op = some (.call addr)) ∧ 16 ≤ s.sp.toNat) ∨
       (kind = 4 ∧ s.fetch = some op ∧ op = 0x00EE ∧ s.sp = 0))

/-- 60_exceptions.md R150: a RUNNING block faults exactly under the four conditions, and otherwise completes its instruction. -/
def Obligations.FaultsExactlyUnderTheFourConditions : Prop :=
  ∀ (s : State), s.runState = .running → s.sp.toNat ≤ 16 → ∃ t, step s = .next t ∧
    (t.runState = .faulted ↔
      (0xFFE < s.pc.toNat ∨ ∃ op, s.fetch = some op ∧
        (decodeWord op = none ∨ ((∃ addr, decodeWord op = some (.call addr)) ∧ s.sp = 16) ∨ (op = 0x00EE ∧ s.sp = 0))))

/-- 30_encoding.md R89: the run halts at the exact word 0x0000 and at no other; another family-0x0 word but RET's faults; a fetch of
two unwritten bytes halts. -/
def Obligations.OnlyTheZeroWordHalts : Prop :=
  (∀ (s t : State), s.runState = .running → step s = .next t → (t.runState = .halted ↔ s.fetch = some 0x0000)) ∧
  (∀ (s : State) (op : Word), s.runState = .running → s.fetch = some op → op.toNat < 0x1000 → op ≠ 0x0000 → op ≠ 0x00EE →
    ∃ t, step s = .next t ∧ FaultedFrom s t 2 op) ∧
  ∀ (s : State), s.runState = .running → s.pc.toNat ≤ 0xFFE →
    (∀ cell ∈ s.mem, cell.1 ≠ s.pc.toNat ∧ cell.1 ≠ s.pc.toNat + 1) → ∃ t, step s = .next t ∧ t.runState = .halted

/-- 10_state.md R34, 60_exceptions.md R158 and 70_reset_and_hazards.md R182: HALTED and FAULTED last until the next reset. No host
transaction other than reset changes such a state. Nor does any number of the model's steps, which the spec does not take there:
that they answer the same state is the model's choice (log entry 1). -/
def Obligations.StoppedLastsUntilReset : Prop :=
  ∀ (s : State), s.ended →
    (∀ n, Host.Core.run core n s = .next s) ∧
    ∀ (acts : List HostAction) (t : State), HostAction.reset ∉ acts → HostAction.applyAll acts s = some t → t = s

/-- 70_reset_and_hazards.md R187: every run ends, in fewer than 2 * 2048^17 = 2^188 steps, from any RUNNING state whose sp is in
its range, whatever the memory and the stack hold. -/
def Obligations.EveryRunEnds : Prop :=
  ∀ (s : State), s.runState = .running → s.sp.toNat ≤ 16 →
    ∃ n, n < 2 * 2048 ^ 17 ∧ ∃ t, Host.Core.run core n s = .next t ∧ t.ended

/-- No state with sp in its range stops the model: a step answers a next state there (60_exceptions.md R155 describes every
fault's, 30_encoding.md R84 covers every word), and in no state a refusal. That the step answers outside RUNNING is the model's
choice (log entry 1), and so is its stop for some sp above 16 (log entry 3). -/
def Obligations.StepAnswersWithSpInRange : Prop :=
  (∀ (s : State), s.sp.toNat ≤ 16 → ∃ t, step s = .next t) ∧
  ∀ (s : State) (r : Refusal), step s ≠ .refused r

/-! ### Progress: executions under weak fairness -/

/-- 70_reset_and_hazards.md R190: under weak fairness a RUNNING block takes its next step eventually, from the state it stands in,
unless a reset abandons the run first (60_exceptions.md R161). The form of an execution is the model's choice (log entries 13
and 17). -/
def Obligations.FairRunningBlockSteps : Prop :=
  ∀ (states : Nat → State) (moves : Nat → Move), IsExecution states moves → WeaklyFair states moves →
    ∀ n, (states n).runState = .running → ∃ m, n ≤ m ∧ states m = states n ∧
      ((moves m = .block ∧ step (states n) = .next (states (m + 1))) ∨ moves m = .host .reset)

/-- 70_reset_and_hazards.md R190 with R187: under weak fairness every run ends that no reset abandons. Whatever the host does and
whenever, the run ends in the state that the block's steps alone lead to, fewer than 2 * 2048^17 of them, and that state stays.
That it stays under block moves is the model's choice (log entry 1), as is the form of an execution (log entries 13 and 17). -/
def Obligations.FairRunsEnd : Prop :=
  ∀ (states : Nat → State) (moves : Nat → Move), IsExecution states moves → WeaklyFair states moves →
    ∀ n, (states n).runState = .running → (states n).sp.toNat ≤ 16 → (∀ m, n ≤ m → moves m ≠ .host .reset) →
      ∃ m k, n ≤ m ∧ k < 2 * 2048 ^ 17 ∧ Host.Core.run core k (states n) = .next (states m) ∧ (states m).ended ∧
        ∀ j, m ≤ j → states j = states m

/-- Weak fairness shuts out no reachable state: the reachable states are those that the weakly fair executions from reset pass
through. The form of an execution is the model's choice (log entries 1, 13 and 17). -/
def Obligations.FairExecutionsReachEveryReachableState : Prop :=
  ∀ (s : State), Reachable s ↔ ∃ (states : Nat → State) (moves : Nat → Move), IsExecution states moves ∧
    WeaklyFair states moves ∧ states 0 = State.reset ∧ ∃ n, states n = s

/-! ### The invariant -/

/-- AN INVARIANT THAT EVERY STEP KEEPS: canonical memory, sp in 0 to 16 (10_state.md R32), slots at most 0x1000 (R29), an empty
stack before `start` (R39), HALTED only past a word 0x0000 (70_reset_and_hazards.md R184), and an exact fault record
(10_state.md R35; 60_exceptions.md R150, R155). -/
def Obligations.StepKeepsInv : Prop :=
  ∀ (s t : State), s.Inv → step s = .next t → t.Inv

/-- The invariant holds after reset (10_state.md R38). -/
def Obligations.ResetMeetsInv : Prop :=
  State.reset.Inv

/-- Every transaction the host may make keeps the invariant (00_scope.md R16, R17). -/
def Obligations.HostKeepsInv : Prop :=
  ∀ (act : HostAction) (s t : State), s.Inv → act.apply s = some t → t.Inv

/-- Every state the block and the host can reach together meets the invariant, and the step answers there. That it answers outside
RUNNING is the model's choice (log entry 1), and so is the form of the host's moves beside it (log entry 13). -/
def Obligations.ReachableStatesMeetInv : Prop :=
  ∀ (s : State), Reachable s → s.Inv ∧ ∃ t, step s = .next t

/-! ### Reset and the host ports -/

/-- 70_reset_and_hazards.md R180: reset, in any run state, puts every register at R38's value and leaves the memory alone; the
state after reset with nothing loaded has the same values and reads 0x00 everywhere; at `start` the memory is the loader's
image, with every other byte 0x00. -/
def Obligations.ResetValues : Prop :=
  (∀ (s : State), ∃ t, HostAction.reset.apply s = some t ∧ t.mem = s.mem ∧ SameMemory s t ∧ t = { State.reset with mem := s.mem }) ∧
  (∀ r, State.reset.getV r = 0x00) ∧ State.reset.pc = 0x0000 ∧ (∀ j, State.reset.getSlot j = 0x0000) ∧ State.reset.sp = 0 ∧
  State.reset.runState = .idle ∧ State.reset.faultKind = 0 ∧ State.reset.faultPc = 0x0000 ∧ State.reset.faultOp = 0x0000 ∧
  (∀ a, State.reset.memRead a = 0x00) ∧
  ∀ (s : State) (image : List Byte), image.length ≤ 4096 →
    ∃ t, HostAction.applyAll [.reset, .loadImage image, .start] s = some t ∧ t.runState = .running ∧
      ∀ a, t.memRead a = image.getD a.toNat 0x00

/-- 00_scope.md R16 and 70_reset_and_hazards.md R182: `start` moves IDLE to RUNNING and has no effect in any other run state. -/
def Obligations.StartOnlyFromIdle : Prop :=
  ∀ (s : State),
    (s.runState = .idle → HostAction.start.apply s = some { s with runState := .running }) ∧
    (s.runState ≠ .idle → HostAction.start.apply s = some s)

/-- 00_scope.md R17 and 70_reset_and_hazards.md R191: outside IDLE the host has no write; in IDLE it writes a register, pc or memory
and nothing else, never sp, a slot, the run state or the fault record; it reads the state unless the block is RUNNING. -/
def Obligations.HostAccessIsGated : Prop :=
  (∀ (act : HostAction) (s : State), act ≠ .reset → act ≠ .start → s.runState ≠ .idle → act.apply s = none) ∧
  (∀ (act : HostAction) (s t : State), act ≠ .reset → act ≠ .start → act.apply s = some t →
    SameStack s t ∧ SameStatus s t) ∧
  (∀ (s : State) (x : Reg) (b : Byte), s.runState = .idle → ∃ t, (HostAction.writeV x b).apply s = some t ∧
    t.getV x = b ∧ SameRegsBut x s t ∧ t.pc = s.pc ∧ SameBesidesRegsAndPc s t) ∧
  (∀ (s : State) (entry : Word), s.runState = .idle → ∃ t, (HostAction.writePc entry).apply s = some t ∧
    t.pc = entry ∧ SameRegs s t ∧ SameBesidesRegsAndPc s t) ∧
  (∀ (s : State) (a : Addr) (b : Byte), s.runState = .idle → Memory.wf s.mem = true →
    ∃ t, (HostAction.writeMem a b).apply s = some t ∧ t.memRead a = b ∧ (∀ a', a' ≠ a → t.memRead a' = s.memRead a') ∧
      SameRegs s t ∧ t.pc = s.pc) ∧
  ∀ (s : State), (s.hostView = none ↔ s.runState = .running) ∧
    ∀ view, s.hostView = some view → view = ⟨s.v, s.pc, s.sp, s.stack, s.mem⟩

/-- 20_memory.md R50: after the loader's image of at most 4096 bytes, the memory reads as the image, and 0x00 wherever it does
not reach; nothing else changes. -/
def Obligations.LoadedImageReads : Prop :=
  ∀ (image : List Byte) (s : State), s.runState = .idle → image.length ≤ 4096 →
    ∃ t, (HostAction.loadImage image).apply s = some t ∧ (∀ a, t.memRead a = image.getD a.toNat 0x00) ∧
      Memory.wf t.mem = true ∧ SameRegs s t ∧ t.pc = s.pc ∧ SameStack s t ∧ SameStatus s t

/-- 70_reset_and_hazards.md R182 with 10_state.md R39: the launch leaves a RUNNING block at ENTRY_PC (0x000 where
the host writes none), with the image in memory, each
register at its last preset or 0, an empty stack of zeros and a clear fault record. -/
def Obligations.LaunchStateAtFirstFetch : Prop :=
  ∀ (image : List Byte) (presets : List (Reg × Byte)) (entry : Option Word), image.length ≤ 4096 →
    ∃ s, launch image presets entry = some s ∧ s.runState = .running ∧ s.pc = entry.getD 0x000 ∧ s.sp = 0 ∧ (∀ j, s.getSlot j = 0) ∧
      (∀ r, s.getV r = ((presets.reverse.find? fun p => p.1 == r).map Prod.snd).getD 0x00) ∧
      (∀ a, s.memRead a = image.getD a.toNat 0x00) ∧ s.faultKind = 0 ∧ s.faultPc = 0 ∧ s.faultOp = 0
end

