-- ==== Sys2Proof/Laws/Decode.lean ====
section
/-! SUPPORT. The decoder: what each row's mask tests, the operation a word selects, and the fields of encoded words. -/

namespace Sys2Proof

/-- The mask of rows 3 to 7 tests the family nibble (30_encoding.md R71, R85). -/
theorem Row.mask_family (w : Word) (p : Nibble) : (w &&& 0xF000#16 = p.setWidth 16 <<< 12) ↔ w.extractLsb' 12 4 = p := by
  simp only [BitVec.eq_of_getLsbD_eq_iff]
  constructor
  · intro h i hi
    have := h (12 + i) (by omega)
    interval_cases i <;> simpa using this
  · intro h i hi
    have h0 := h 0 (by omega)
    have h1 := h 1 (by omega)
    have h2 := h 2 (by omega)
    have h3 := h 3 (by omega)
    interval_cases i <;> simp_all

/-- The mask of rows 8 to 12 tests the family nibble and the function nibble (30_encoding.md R75, R85). -/
theorem Row.mask_function (w : Word) (p q : Nibble) :
    (w &&& 0xF00F#16 = p.setWidth 16 <<< 12 ||| q.setWidth 16) ↔ w.extractLsb' 12 4 = p ∧ w.extractLsb' 0 4 = q := by
  simp only [BitVec.eq_of_getLsbD_eq_iff]
  constructor
  · intro h
    constructor
    · intro i hi
      have := h (12 + i) (by omega)
      interval_cases i <;> simpa using this
    · intro i hi
      have := h i (by omega)
      interval_cases i <;> simpa using this
  · rintro ⟨h, g⟩ i hi
    have h0 := h 0 (by omega)
    have h1 := h 1 (by omega)
    have h2 := h 2 (by omega)
    have h3 := h 3 (by omega)
    have g0 := g 0 (by omega)
    have g1 := g 1 (by omega)
    have g2 := g 2 (by omega)
    have g3 := g 3 (by omega)
    interval_cases i <;> simp_all

theorem Row.selects_family (o : Op) (w : Word) (n : Nibble) (p : Word) (hp : p = n.setWidth 16 <<< 12) :
    (Row.mk o p 0xF000).selects w = decide (w.extractLsb' 12 4 = n) := by
  subst hp
  rw [Row.selects, Bool.eq_iff_iff, decide_eq_true_iff, beq_iff_eq]
  exact Row.mask_family w n

theorem Row.selects_function (o : Op) (w : Word) (n q : Nibble) (p : Word) (hp : p = n.setWidth 16 <<< 12 ||| q.setWidth 16) :
    (Row.mk o p 0xF00F).selects w = decide (w.extractLsb' 12 4 = n ∧ w.extractLsb' 0 4 = q) := by
  subst hp
  rw [Row.selects, Bool.eq_iff_iff, decide_eq_true_iff, beq_iff_eq]
  exact Row.mask_function w n q

theorem Row.selects_whole (o : Op) (w p : Word) : (Row.mk o p 0xFFFF).selects w = decide (w = p) := by
  have : w &&& 0xFFFF = w := by simpa using BitVec.and_allOnes (x := w)
  rw [Row.selects, this, Bool.eq_iff_iff, decide_eq_true_iff, beq_iff_eq]

/-- The operation the family and function nibbles select, outside family 0 (30_encoding.md R86). -/
def Op.ofNibbles (f d : Nibble) : Option Op :=
  if f = 2#4 then some .call else if f = 3#4 then some .se else if f = 4#4 then some .sne
  else if f = 6#4 then some .ldImm else if f = 7#4 then some .addn
  else if f = 8#4 ∧ d = 0#4 then some .ldReg else if f = 8#4 ∧ d = 1#4 then some .or
  else if f = 8#4 ∧ d = 2#4 then some .and else if f = 8#4 ∧ d = 3#4 then some .xor
  else if f = 8#4 ∧ d = 4#4 then some .add else none

/-- The operation dispatch selects for a word, by whole word, family and function. -/
def Op.ofWord (w : Word) : Option Op :=
  if w = 0x0000#16 then some .halt else if w = 0x00EE#16 then some .ret
  else Op.ofNibbles (w.extractLsb' 12 4) (w.extractLsb' 0 4)

theorem Row.find_op_cons (r : Row) (rs : List Row) (w : Word) (P : Prop) [Decidable P] (h : r.selects w = decide P) :
    ((r :: rs).find? fun r => r.selects w).map Row.op =
      if P then some r.op else (rs.find? fun r => r.selects w).map Row.op := by
  by_cases hp : P <;> simp [h, hp]

/-- The dispatch table selects by whole word, family and function, whatever the order of its rows (30_encoding.md R86). -/
theorem dispatch_op (w : Word) : (dispatchTable.find? fun r => r.selects w).map Row.op = Op.ofWord w := by
  unfold dispatchTable Op.ofWord Op.ofNibbles
  rw [Row.find_op_cons _ _ w _ (Row.selects_whole _ w _), Row.find_op_cons _ _ w _ (Row.selects_whole _ w _), Row.find_op_cons _ _ w _ (Row.selects_family _ w 2 0x2000 rfl),
    Row.find_op_cons _ _ w _ (Row.selects_family _ w 3 0x3000 rfl), Row.find_op_cons _ _ w _ (Row.selects_family _ w 4 0x4000 rfl),
    Row.find_op_cons _ _ w _ (Row.selects_family _ w 6 0x6000 rfl), Row.find_op_cons _ _ w _ (Row.selects_family _ w 7 0x7000 rfl),
    Row.find_op_cons _ _ w _ (Row.selects_function _ w 8 0 0x8000 rfl), Row.find_op_cons _ _ w _ (Row.selects_function _ w 8 1 0x8001 rfl),
    Row.find_op_cons _ _ w _ (Row.selects_function _ w 8 2 0x8002 rfl), Row.find_op_cons _ _ w _ (Row.selects_function _ w 8 3 0x8003 rfl),
    Row.find_op_cons _ _ w _ (Row.selects_function _ w 8 4 0x8004 rfl)]
  rfl

/-- What `decodeWord` answers, to be cited instead of unfolding the table. -/
theorem decodeWord_eq (w : Word) : decodeWord w = (Op.ofWord w).map fun o => o.instr (Fields.ofWord w) := by
  rw [← dispatch_op, Option.map_map]
  rfl


/-- A decoded instruction is the selected operation on the word's fields. -/
theorem decodeWord_some_iff {w : Word} {i : Instr} :
    decodeWord w = some i ↔ ∃ o, Op.ofWord w = some o ∧ o.instr (Fields.ofWord w) = i := by
  rw [decodeWord_eq, Option.map_eq_some_iff]

theorem decodeWord_none_iff {w : Word} : decodeWord w = none ↔ Op.ofWord w = none := by
  rw [decodeWord_eq, Option.map_eq_none_iff]

/-- The operation of a decoded instruction is the selected one. -/
@[simp] theorem Op.op_instr (o : Op) (f : Fields) : (o.instr f).op = o := by
  cases o <;> rfl

theorem OperandKind.inRange_iff {k : OperandKind} {n : Nat} : k.inRange n = true ↔ n < 2 ^ k.width :=
  decide_eq_true_iff

/-- Every instruction's operands are in range, by their types (30_encoding.md R75). -/
theorem Instr.wellFormed_all (i : Instr) : i.wellFormed = true := by
  cases i <;>
    simp only [Instr.wellFormed, Instr.operands, List.all_cons, List.all_nil, Bool.and_true, Bool.and_eq_true,
      OperandKind.inRange_iff] <;>
    first
      | exact BitVec.isLt _
      | exact ⟨BitVec.isLt _, BitVec.isLt _⟩

/-- The bytes of a word joined again are the word (20_memory.md R52, R54). -/
theorem joinBytes_extract (w : Word) : joinBytes (w.extractLsb' 8 8) (w.extractLsb' 0 8) = w := by
  apply BitVec.eq_of_toNat_eq
  have h := BitVec.toNat_append (w.extractLsb' 8 8) (w.extractLsb' 0 8)
  rw [Nat.shiftLeft_eq, ← Nat.mul_comm] at h
  simp only [joinBytes]
  rw [h, BitVec.extractLsb'_toNat, BitVec.extractLsb'_toNat, ← Nat.two_pow_add_eq_or_of_lt (by omega)]
  have := w.isLt
  simp only [Nat.shiftRight_eq_div_pow]
  omega

/-- A joined word is `hi * 256 + lo` (00_scope.md R8). -/
theorem joinBytes_toNat (hi lo : Byte) : (joinBytes hi lo).toNat = hi.toNat * 256 + lo.toNat := by
  have h := BitVec.toNat_append hi lo
  have hlo := lo.isLt
  rw [Nat.shiftLeft_eq, ← Nat.mul_comm, ← Nat.two_pow_add_eq_or_of_lt (by omega)] at h
  simp only [joinBytes]
  rw [h]
  omega

end Sys2Proof
end

