-- ==== Sys2Proof/Laws/State.lean ====
section
/-! SUPPORT. One lemma per field per update of State, and the accessors over them. -/

namespace Sys2Proof.Machine

section Fields

variable (s : State)

@[simp] theorem State.memWrite_v (a : Addr) (b : Byte) : (s.memWrite a b).v = s.v := rfl
@[simp] theorem State.memWrite_pc (a : Addr) (b : Byte) : (s.memWrite a b).pc = s.pc := rfl
@[simp] theorem State.memWrite_stack (a : Addr) (b : Byte) : (s.memWrite a b).stack = s.stack := rfl
@[simp] theorem State.memWrite_sp (a : Addr) (b : Byte) : (s.memWrite a b).sp = s.sp := rfl
@[simp] theorem State.memWrite_mem (a : Addr) (b : Byte) : (s.memWrite a b).mem = Memory.put s.mem a.toNat b := rfl
@[simp] theorem State.memWrite_runState (a : Addr) (b : Byte) : (s.memWrite a b).runState = s.runState := rfl
@[simp] theorem State.memWrite_faultKind (a : Addr) (b : Byte) : (s.memWrite a b).faultKind = s.faultKind := rfl
@[simp] theorem State.memWrite_faultPc (a : Addr) (b : Byte) : (s.memWrite a b).faultPc = s.faultPc := rfl
@[simp] theorem State.memWrite_faultOp (a : Addr) (b : Byte) : (s.memWrite a b).faultOp = s.faultOp := rfl

@[simp] theorem State.setV_v (x : Reg) (b : Byte) : (s.setV x b).v = s.v.set x.toNat b x.isLt := rfl
@[simp] theorem State.setV_pc (x : Reg) (b : Byte) : (s.setV x b).pc = s.pc := rfl
@[simp] theorem State.setV_stack (x : Reg) (b : Byte) : (s.setV x b).stack = s.stack := rfl
@[simp] theorem State.setV_sp (x : Reg) (b : Byte) : (s.setV x b).sp = s.sp := rfl
@[simp] theorem State.setV_mem (x : Reg) (b : Byte) : (s.setV x b).mem = s.mem := rfl
@[simp] theorem State.setV_runState (x : Reg) (b : Byte) : (s.setV x b).runState = s.runState := rfl
@[simp] theorem State.setV_faultKind (x : Reg) (b : Byte) : (s.setV x b).faultKind = s.faultKind := rfl
@[simp] theorem State.setV_faultPc (x : Reg) (b : Byte) : (s.setV x b).faultPc = s.faultPc := rfl
@[simp] theorem State.setV_faultOp (x : Reg) (b : Byte) : (s.setV x b).faultOp = s.faultOp := rfl

@[simp] theorem State.setPc_v (w : Word) : (s.setPc w).v = s.v := rfl
@[simp] theorem State.setPc_pc (w : Word) : (s.setPc w).pc = w := rfl
@[simp] theorem State.setPc_stack (w : Word) : (s.setPc w).stack = s.stack := rfl
@[simp] theorem State.setPc_sp (w : Word) : (s.setPc w).sp = s.sp := rfl
@[simp] theorem State.setPc_mem (w : Word) : (s.setPc w).mem = s.mem := rfl
@[simp] theorem State.setPc_runState (w : Word) : (s.setPc w).runState = s.runState := rfl
@[simp] theorem State.setPc_faultKind (w : Word) : (s.setPc w).faultKind = s.faultKind := rfl
@[simp] theorem State.setPc_faultPc (w : Word) : (s.setPc w).faultPc = s.faultPc := rfl
@[simp] theorem State.setPc_faultOp (w : Word) : (s.setPc w).faultOp = s.faultOp := rfl

@[simp] theorem State.advance_v : s.advance.v = s.v := rfl
@[simp] theorem State.advance_pc : s.advance.pc = s.pc + 2 := rfl
@[simp] theorem State.advance_stack : s.advance.stack = s.stack := rfl
@[simp] theorem State.advance_sp : s.advance.sp = s.sp := rfl
@[simp] theorem State.advance_mem : s.advance.mem = s.mem := rfl
@[simp] theorem State.advance_runState : s.advance.runState = s.runState := rfl
@[simp] theorem State.advance_faultKind : s.advance.faultKind = s.faultKind := rfl
@[simp] theorem State.advance_faultPc : s.advance.faultPc = s.faultPc := rfl
@[simp] theorem State.advance_faultOp : s.advance.faultOp = s.faultOp := rfl

@[simp] theorem State.push_v (w : Word) : (s.push w).v = s.v := rfl
@[simp] theorem State.push_pc (w : Word) : (s.push w).pc = s.pc := rfl
@[simp] theorem State.push_stack (w : Word) : (s.push w).stack = s.stack.setIfInBounds s.sp.toNat w := rfl
@[simp] theorem State.push_sp (w : Word) : (s.push w).sp = s.sp + 1 := rfl
@[simp] theorem State.push_mem (w : Word) : (s.push w).mem = s.mem := rfl
@[simp] theorem State.push_runState (w : Word) : (s.push w).runState = s.runState := rfl
@[simp] theorem State.push_faultKind (w : Word) : (s.push w).faultKind = s.faultKind := rfl
@[simp] theorem State.push_faultPc (w : Word) : (s.push w).faultPc = s.faultPc := rfl
@[simp] theorem State.push_faultOp (w : Word) : (s.push w).faultOp = s.faultOp := rfl

@[simp] theorem State.raise_v (c : FaultCause) (op : Word) : (s.raise c op).v = s.v := rfl
@[simp] theorem State.raise_pc (c : FaultCause) (op : Word) : (s.raise c op).pc = s.pc := rfl
@[simp] theorem State.raise_stack (c : FaultCause) (op : Word) : (s.raise c op).stack = s.stack := rfl
@[simp] theorem State.raise_sp (c : FaultCause) (op : Word) : (s.raise c op).sp = s.sp := rfl
@[simp] theorem State.raise_mem (c : FaultCause) (op : Word) : (s.raise c op).mem = s.mem := rfl
@[simp] theorem State.raise_runState (c : FaultCause) (op : Word) : (s.raise c op).runState = .faulted := rfl
@[simp] theorem State.raise_faultKind (c : FaultCause) (op : Word) : (s.raise c op).faultKind = c.code := rfl
@[simp] theorem State.raise_faultPc (c : FaultCause) (op : Word) : (s.raise c op).faultPc = s.pc := rfl
@[simp] theorem State.raise_faultOp (c : FaultCause) (op : Word) : (s.raise c op).faultOp = op := rfl

@[simp] theorem State.halt_v : s.halt.v = s.v := rfl
@[simp] theorem State.halt_pc : s.halt.pc = s.pc := rfl
@[simp] theorem State.halt_stack : s.halt.stack = s.stack := rfl
@[simp] theorem State.halt_sp : s.halt.sp = s.sp := rfl
@[simp] theorem State.halt_mem : s.halt.mem = s.mem := rfl
@[simp] theorem State.halt_runState : s.halt.runState = .halted := rfl
@[simp] theorem State.halt_faultKind : s.halt.faultKind = s.faultKind := rfl
@[simp] theorem State.halt_faultPc : s.halt.faultPc = s.faultPc := rfl
@[simp] theorem State.halt_faultOp : s.halt.faultOp = s.faultOp := rfl

@[simp] theorem State.hostReset_v : s.hostReset.v = State.reset.v := rfl
@[simp] theorem State.hostReset_pc : s.hostReset.pc = State.reset.pc := rfl
@[simp] theorem State.hostReset_stack : s.hostReset.stack = State.reset.stack := rfl
@[simp] theorem State.hostReset_sp : s.hostReset.sp = State.reset.sp := rfl
@[simp] theorem State.hostReset_mem : s.hostReset.mem = s.mem := rfl
@[simp] theorem State.hostReset_runState : s.hostReset.runState = State.reset.runState := rfl
@[simp] theorem State.hostReset_faultKind : s.hostReset.faultKind = State.reset.faultKind := rfl
@[simp] theorem State.hostReset_faultPc : s.hostReset.faultPc = State.reset.faultPc := rfl
@[simp] theorem State.hostReset_faultOp : s.hostReset.faultOp = State.reset.faultOp := rfl

end Fields

/-! ### Registers (10_state.md R20, R22) -/

theorem State.getV_setV_same (s : State) (x : Reg) (b : Byte) : (s.setV x b).getV x = b := by
  simp [State.getV]

theorem State.getV_setV_other (s : State) {x r : Reg} (b : Byte) (h : r ≠ x) : (s.setV x b).getV r = s.getV r := by
  have : x.toNat ≠ r.toNat := fun e => h (BitVec.eq_of_toNat_eq e).symm
  simp [State.getV, this]

@[simp] theorem State.getV_setV (s : State) (x r : Reg) (b : Byte) :
    (s.setV x b).getV r = if r = x then b else s.getV r := by
  by_cases h : r = x
  · subst h; simp [State.getV_setV_same]
  · simp [h, State.getV_setV_other]

@[simp] theorem State.getV_setPc (s : State) (w : Word) (r : Reg) : (s.setPc w).getV r = s.getV r := rfl
@[simp] theorem State.getV_advance (s : State) (r : Reg) : s.advance.getV r = s.getV r := rfl
@[simp] theorem State.getV_push (s : State) (w : Word) (r : Reg) : (s.push w).getV r = s.getV r := rfl
@[simp] theorem State.getV_raise (s : State) (c : FaultCause) (op : Word) (r : Reg) : (s.raise c op).getV r = s.getV r := rfl
@[simp] theorem State.getV_halt (s : State) (r : Reg) : s.halt.getV r = s.getV r := rfl
@[simp] theorem State.getV_memWrite (s : State) (a : Addr) (b : Byte) (r : Reg) : (s.memWrite a b).getV r = s.getV r := rfl

/-! ### Slots -/

@[simp] theorem State.getSlot_setV (s : State) (x : Reg) (b : Byte) (j : BitVec 4) : (s.setV x b).getSlot j = s.getSlot j := rfl
@[simp] theorem State.getSlot_setPc (s : State) (w : Word) (j : BitVec 4) : (s.setPc w).getSlot j = s.getSlot j := rfl
@[simp] theorem State.getSlot_advance (s : State) (j : BitVec 4) : s.advance.getSlot j = s.getSlot j := rfl
@[simp] theorem State.getSlot_raise (s : State) (c : FaultCause) (op : Word) (j : BitVec 4) : (s.raise c op).getSlot j = s.getSlot j := rfl
@[simp] theorem State.getSlot_halt (s : State) (j : BitVec 4) : s.halt.getSlot j = s.getSlot j := rfl
@[simp] theorem State.getSlot_memWrite (s : State) (a : Addr) (b : Byte) (j : BitVec 4) : (s.memWrite a b).getSlot j = s.getSlot j := rfl

/-- A push writes the slot `sp` names and no other (10_state.md R32). -/
@[simp] theorem State.getSlot_push (s : State) (w : Word) (j : BitVec 4) :
    (s.push w).getSlot j = if j.toNat = s.sp.toNat then w else s.getSlot j := by
  simp only [State.getSlot, State.push_stack, Vector.getElem_setIfInBounds, eq_comm]

/-- The slot a pop reads is the one just below sp (10_state.md R32). -/
theorem State.slot_below_sp (s : State) (j : BitVec 4) (h : j.toNat + 1 = s.sp.toNat) :
    s.stack[(s.sp - 1).toNat]? = some (s.getSlot j) := by
  have h1 : (s.sp - 1).toNat = j.toNat := by
    have := s.sp.isLt
    rw [BitVec.toNat_sub]; simp; omega
  rw [h1, Vector.getElem?_eq_getElem j.isLt]
  rfl

theorem State.sp_sub_one {s : State} (h : 1 ≤ s.sp.toNat) : (s.sp - 1).toNat + 1 = s.sp.toNat := by
  have := s.sp.isLt
  rw [BitVec.toNat_sub]; simp; omega

theorem State.sp_add_one {s : State} (h : s.sp.toNat < 16) : (s.sp + 1).toNat = s.sp.toNat + 1 := by
  rw [BitVec.toNat_add]; simp; omega

/-! ### Memory reads: only the memory field matters -/

theorem State.memRead_congr {s t : State} (h : t.mem = s.mem) (a : Addr) : t.memRead a = s.memRead a := by
  simp [State.memRead, h]

@[simp] theorem State.memRead_setV (s : State) (x : Reg) (b : Byte) (a : Addr) : (s.setV x b).memRead a = s.memRead a := rfl
@[simp] theorem State.memRead_setPc (s : State) (w : Word) (a : Addr) : (s.setPc w).memRead a = s.memRead a := rfl
@[simp] theorem State.memRead_advance (s : State) (a : Addr) : s.advance.memRead a = s.memRead a := rfl
@[simp] theorem State.memRead_push (s : State) (w : Word) (a : Addr) : (s.push w).memRead a = s.memRead a := rfl
@[simp] theorem State.memRead_raise (s : State) (c : FaultCause) (op : Word) (a : Addr) : (s.raise c op).memRead a = s.memRead a := rfl
@[simp] theorem State.memRead_halt (s : State) (a : Addr) : s.halt.memRead a = s.memRead a := rfl

/-! ### The conditional advance of a skip -/

theorem State.skipIf_pc (s : State) (c : Bool) : (s.skipIf c).pc = if c then s.pc + 2 else s.pc := by
  cases c <;> rfl

/-- A skip changes nothing but pc. -/
theorem State.skipIf_eq (s : State) (c : Bool) : s.skipIf c = s.setPc (if c then s.pc + 2 else s.pc) := by
  cases c <;> rfl

end Sys2Proof.Machine
end

