-- ==== Sys2Proof/Laws/Exec.lean ====
section
/-! SUPPORT. What each meaning answers, as equations over the shared operations, and everything an instruction can do. -/

namespace Sys2Proof.Machine

/-- One ALU instruction: pc moves past it and one register is written (10_state.md R22, R28). -/
theorem State.aluTo_eq (s : State) (f : AluFn) (x : Reg) (b : Byte) :
    s.aluTo f x b = { s with pc := s.pc + 2, v := s.v.set x.toNat (alu f (s.getV x) b) x.isLt } := rfl

@[simp] theorem alu_passB (a b : Byte) : alu .passB a b = b := rfl
@[simp] theorem alu_or (a b : Byte) : alu .or a b = a ||| b := rfl
@[simp] theorem alu_and (a b : Byte) : alu .and a b = a &&& b := rfl
@[simp] theorem alu_xor (a b : Byte) : alu .xor a b = a ^^^ b := rfl
@[simp] theorem alu_add (a b : Byte) : alu .add a b = a + b := rfl

theorem State.stackFull_iff {s : State} : s.stackFull = true ↔ 16 ≤ s.sp.toNat :=
  decide_eq_true_iff

theorem State.stackEmpty_iff {s : State} : s.stackEmpty = true ↔ s.sp = 0 :=
  beq_iff_eq

/-- A pop reads the slot below sp, leaves every slot, and lowers sp by one (10_state.md R32, R33). -/
theorem State.pop_some_iff {s t : State} {value : Word} :
    s.pop = some (value, t) ↔ s.stack[(s.sp - 1).toNat]? = some value ∧ t = { s with sp := s.sp - 1 } := by
  simp only [State.pop, Option.map_eq_some_iff, Prod.mk.injEq]
  constructor
  · rintro ⟨_, h, rfl, rfl⟩; exact ⟨h, rfl⟩
  · rintro ⟨h, rfl⟩; exact ⟨value, h, rfl, rfl⟩

theorem exec_halt (s : State) : exec .halt s = .next s.advance.halt := rfl

theorem exec_ret_empty {s : State} (h : s.sp = 0) : exec .ret s = .next (s.raise .stackUnderflow 0x00EE) := by
  simp only [exec, execRet, State.stackEmpty_iff.mpr h, if_true, encode]
  rfl

theorem exec_ret_pop {s : State} {target : Word} (h : s.sp ≠ 0) (hv : s.stack[(s.sp - 1).toNat]? = some target) :
    exec .ret s = .next { s with pc := target, sp := s.sp - 1 } := by
  have hp : s.advance.pop = some (target, { s.advance with sp := s.sp - 1 }) := State.pop_some_iff.mpr ⟨hv, rfl⟩
  have he : ¬ s.stackEmpty = true := fun e => h (State.stackEmpty_iff.mp e)
  simp only [exec, execRet, hp, if_neg he]
  rfl

theorem exec_call_full {addr : Addr} {s : State} (h : 16 ≤ s.sp.toNat) :
    exec (.call addr) s = .next (s.raise .stackOverflow (encode (.call addr))) := by
  simp only [exec, execCall, State.stackFull_iff.mpr h, if_true]

theorem exec_call_push {addr : Addr} {s : State} (h : s.sp.toNat < 16) :
    exec (.call addr) s = .next ((s.push (s.pc + 2)).setPc (addr.setWidth 16)) := by
  have he : ¬ s.stackFull = true := fun e => absurd (State.stackFull_iff.mp e) (by omega)
  simp only [exec, execCall, if_neg he]
  rfl

theorem exec_se (x : Reg) (kk : Byte) (s : State) :
    exec (.se x kk) s = .next (s.setPc (if s.getV x = kk then s.pc + 2 + 2 else s.pc + 2)) := by
  by_cases h : s.getV x = kk <;> simp [exec, execSe, State.skipIf, comparator, h] <;> rfl

theorem exec_sne (x : Reg) (kk : Byte) (s : State) :
    exec (.sne x kk) s = .next (s.setPc (if s.getV x ≠ kk then s.pc + 2 + 2 else s.pc + 2)) := by
  by_cases h : s.getV x = kk <;> simp [exec, execSne, State.skipIf, comparator, h] <;> rfl

theorem exec_ldImm (x : Reg) (kk : Byte) (s : State) : exec (.ldImm x kk) s = .next (s.advance.setV x kk) := rfl

theorem exec_addn (x : Reg) (d : Nibble) (s : State) :
    exec (.addn x d) s = .next (s.advance.setV x (s.getV x + d.setWidth 8)) := rfl

theorem exec_ldReg (x y : Reg) (s : State) : exec (.ldReg x y) s = .next (s.advance.setV x (s.getV y)) := rfl

theorem exec_or (x y : Reg) (s : State) : exec (.or x y) s = .next (s.advance.setV x (s.getV x ||| s.getV y)) := rfl

theorem exec_and (x y : Reg) (s : State) : exec (.and x y) s = .next (s.advance.setV x (s.getV x &&& s.getV y)) := rfl

theorem exec_xor (x y : Reg) (s : State) : exec (.xor x y) s = .next (s.advance.setV x (s.getV x ^^^ s.getV y)) := rfl

theorem exec_add (x y : Reg) (s : State) :
    exec (.add x y) s =
      .next ((s.advance.setV x (s.getV x + s.getV y)).setV 0xF (carryByte (s.getV x) (s.getV y))) := rfl

/-- EVERYTHING AN INSTRUCTION CAN DO when it answers a next state: halt, return or underflow, call or overflow, move pc by 2
or 4, or move pc by 2 and write registers. -/
theorem exec_cases {i : Instr} {s t : State} (h : exec i s = .next t) :
    (i = .halt ∧ t = s.advance.halt) ∨
    (i = .ret ∧ s.sp = 0 ∧ t = s.raise .stackUnderflow 0x00EE) ∨
    (i = .ret ∧ s.sp ≠ 0 ∧ ∃ target, s.stack[(s.sp - 1).toNat]? = some target ∧ t = { s with pc := target, sp := s.sp - 1 }) ∨
    (∃ addr, i = .call addr ∧ 16 ≤ s.sp.toNat ∧ t = s.raise .stackOverflow (encode (.call addr))) ∨
    (∃ addr, i = .call addr ∧ s.sp.toNat < 16 ∧ t = (s.push (s.pc + 2)).setPc (addr.setWidth 16)) ∨
    ((i.op = .se ∨ i.op = .sne) ∧ (t = s.setPc (s.pc + 2) ∨ t = s.setPc (s.pc + 2 + 2))) ∨
    (i.op ∉ [.halt, .ret, .call, .se, .sne] ∧ ∃ v, t = { s with pc := s.pc + 2, v := v }) := by
  cases i with
  | halt => rw [exec_halt] at h; cases h; exact .inl ⟨rfl, rfl⟩
  | ret =>
    right
    by_cases h0 : s.sp = 0
    · rw [exec_ret_empty h0] at h; cases h; exact .inl ⟨rfl, h0, rfl⟩
    · cases hv : s.stack[(s.sp - 1).toNat]? with
      | some target => rw [exec_ret_pop h0 hv] at h; cases h; exact .inr (.inl ⟨rfl, h0, target, rfl, rfl⟩)
      | none =>
        have hp : s.advance.pop = none := by
          simp only [State.pop, Option.map_eq_none_iff]
          exact hv
        have he : ¬ s.stackEmpty = true := fun e => h0 (State.stackEmpty_iff.mp e)
        simp only [exec, execRet, hp, if_neg he] at h
        cases h
  | call addr =>
    right; right; right
    by_cases hf : 16 ≤ s.sp.toNat
    · rw [exec_call_full hf] at h; cases h; exact .inl ⟨addr, rfl, hf, rfl⟩
    · rw [exec_call_push (by omega)] at h; cases h; exact .inr (.inl ⟨addr, rfl, by omega, rfl⟩)
  | se x kk =>
    rw [exec_se] at h; cases h
    refine .inr (.inr (.inr (.inr (.inr (.inl ⟨.inl rfl, ?_⟩)))))
    split
    · exact .inr rfl
    · exact .inl rfl
  | sne x kk =>
    rw [exec_sne] at h; cases h
    refine .inr (.inr (.inr (.inr (.inr (.inl ⟨.inr rfl, ?_⟩)))))
    split
    · exact .inr rfl
    · exact .inl rfl
  | ldImm | addn | ldReg | or | and | xor | add =>
    cases h
    exact .inr (.inr (.inr (.inr (.inr (.inr ⟨by simp [Instr.op], _, rfl⟩)))))

end Sys2Proof.Machine
end

