-- ==== Sys2Proof/Laws/HostPort.lean ====
section
/-! SUPPORT. The host ports: the write gate and transactions in sequence. -/

namespace Sys2Proof.Machine

/-- A host write is admitted exactly in IDLE (00_scope.md R17). -/
theorem State.whileIdle_some_iff {s t u : State} : s.whileIdle t = some u ↔ s.runState = .idle ∧ u = t := by
  unfold State.whileIdle
  cases s.runState <;> simp [eq_comm]

theorem HostAction.applyAll_append (a b : List HostAction) (s : State) :
    HostAction.applyAll (a ++ b) s = (HostAction.applyAll a s).bind (HostAction.applyAll b) := by
  induction a generalizing s with
  | nil => rfl
  | cons act rest ih =>
    simp only [List.cons_append, HostAction.applyAll]
    cases act.apply s <;> simp [ih]

end Sys2Proof.Machine
end

