-- ==== Sys2Proof/Laws/Step.lean ====
section
/-! SUPPORT. The fetch and the step: what each answers, and everything a step can do. -/

namespace Sys2Proof.Machine

/-- The fetch reads the two bytes at pc and pc + 1, or nothing (20_memory.md R52, R53). -/
theorem State.fetch_eq (s : State) :
    s.fetch = if s.pc ≤ 0xFFE#16 then
      some (joinBytes (s.memRead (s.pc.setWidth 12)) (s.memRead ((s.pc + 1).setWidth 12))) else none := by
  unfold State.fetch State.fetchReads
  by_cases h : s.pc ≤ 0xFFE#16 <;> simp [h]

theorem State.fetch_none_iff {s : State} : s.fetch = none ↔ 0xFFE < s.pc.toNat := by
  rw [State.fetch_eq]
  by_cases h : s.pc ≤ 0xFFE#16
  · have : s.pc.toNat ≤ 0xFFE := by simpa [BitVec.le_def] using h
    simp only [if_pos h, reduceCtorEq, false_iff]
    omega
  · have : 0xFFE < s.pc.toNat := by simpa [BitVec.le_def] using h
    simp only [if_neg h, true_iff]
    exact this

/-- A fetch depends on pc and memory alone. -/
theorem State.fetch_congr {s t : State} (hp : t.pc = s.pc) (hm : t.mem = s.mem) : t.fetch = s.fetch := by
  simp only [State.fetch_eq, State.memRead, hp, hm]

theorem step_not_running {s : State} (h : s.runState ≠ .running) : step s = .next s := by
  unfold step State.stepBlock
  split <;> first | rfl | exact absurd ‹_› h

theorem step_running {s : State} (h : s.runState = .running) : step s = s.cycle := by
  unfold step State.stepBlock
  rw [h]

theorem step_out_of_bounds {s : State} (h : s.runState = .running) (hf : s.fetch = none) :
    step s = .next (s.raise .outOfBoundsFetch 0x0000) := by
  rw [step_running h, State.cycle, hf]

theorem step_unimplemented {s : State} {op : Word} (h : s.runState = .running) (hf : s.fetch = some op)
    (hd : decodeWord op = none) : step s = .next (s.raise .unimplementedOpcode op) := by
  simp only [step_running h, State.cycle, hf, hd]

theorem step_exec {s : State} {op : Word} {i : Instr} (h : s.runState = .running) (hf : s.fetch = some op)
    (hd : decodeWord op = some i) : step s = exec i s := by
  simp only [step_running h, State.cycle, hf, hd]

/-- EVERYTHING A STEP CAN DO (30_encoding.md R80 to R84): nothing unless RUNNING, a fetch fault, a dispatch fault, or one
instruction. -/
theorem step_cases (s : State) :
    (s.runState ≠ .running ∧ step s = .next s) ∨
    (s.runState = .running ∧ s.fetch = none ∧ step s = .next (s.raise .outOfBoundsFetch 0x0000)) ∨
    (s.runState = .running ∧ ∃ op, s.fetch = some op ∧ decodeWord op = none ∧ step s = .next (s.raise .unimplementedOpcode op)) ∨
    (s.runState = .running ∧ ∃ op i, s.fetch = some op ∧ decodeWord op = some i ∧ step s = exec i s) := by
  by_cases hr : s.runState = .running
  · cases hf : s.fetch with
    | none => exact .inr (.inl ⟨hr, rfl, step_out_of_bounds hr hf⟩)
    | some op =>
      cases hd : decodeWord op with
      | none => exact .inr (.inr (.inl ⟨hr, op, rfl, hd, step_unimplemented hr hf hd⟩))
      | some i => exact .inr (.inr (.inr ⟨hr, op, i, rfl, hd, step_exec hr hf hd⟩))
  · exact .inl ⟨hr, step_not_running hr⟩

end Sys2Proof.Machine
end

