-- ==== Sys2Proof/Laws/Execution.lean ====
section
/-! SUPPORT. What a move can do in each run state, and what a stretch of an execution without a step of the block does. -/

namespace Sys2Proof.Machine

theorem Move.apply_block_iff {s t : State} : Move.block.apply s = some t ↔ step s = .next t := by
  unfold Move.apply
  cases step s <;> simp

@[simp] theorem Move.apply_host (act : HostAction) (s : State) : (Move.host act).apply s = act.apply s := rfl

/-- EVERYTHING A MOVE CAN DO while RUNNING: the block's step, a start without effect, or a reset (60_exceptions.md R161;
70_reset_and_hazards.md R182, R191). -/
theorem Move.running_cases {s t : State} {move : Move} (hr : s.runState = .running) (h : move.apply s = some t) :
    (move = .block ∧ step s = .next t) ∨ (move = .host .start ∧ t = s) ∨ (move = .host .reset ∧ t = s.hostReset) := by
  rcases move with _ | (_ | _ | _ | _ | _ | _)
  case block => exact .inl ⟨rfl, Move.apply_block_iff.mp h⟩
  case host.reset => exact .inr (.inr ⟨rfl, by simpa [HostAction.apply] using h.symm⟩)
  case host.start => exact .inr (.inl ⟨rfl, by simpa [HostAction.apply, State.start, hr] using h.symm⟩)
  all_goals simp [HostAction.apply, State.whileIdle, hr] at h

/-- EVERYTHING A MOVE CAN DO after the end of a run: nothing, or a reset (10_state.md R34, 60_exceptions.md R158). -/
theorem Move.stopped_cases {s t : State} {move : Move} (hr : s.runState = .halted ∨ s.runState = .faulted)
    (h : move.apply s = some t) : t = s ∨ move = .host .reset := by
  rcases move with _ | (_ | _ | _ | _ | _ | _)
  case block =>
    rw [Move.apply_block_iff, step_not_running (by rcases hr with hr | hr <;> simp [hr])] at h
    exact .inl (by cases h; rfl)
  case host.reset => exact .inr rfl
  case host.start => rcases hr with hr | hr <;> exact .inl (by simpa [HostAction.apply, State.start, hr] using h.symm)
  all_goals rcases hr with hr | hr <;> simp [HostAction.apply, State.whileIdle, hr] at h

/-- A RUNNING block's state stands still until the block's own step or a reset. -/
theorem IsExecution.running_holds {states : Nat → State} {moves : Nat → Move} (he : IsExecution states moves) {n : Nat}
    (hr : (states n).runState = .running) {k : Nat} (hb : ∀ i, i < k → moves (n + i) ≠ .block)
    (hx : ∀ i, i < k → moves (n + i) ≠ .host .reset) : states (n + k) = states n := by
  induction k with
  | zero => rfl
  | succ k ih =>
    have hs := ih (fun i hi => hb i (by omega)) (fun i hi => hx i (by omega))
    have hm := he (n + k)
    rw [hs] at hm
    obtain ⟨h, -⟩ | ⟨-, h⟩ | ⟨h, -⟩ := Move.running_cases hr hm
    · exact absurd h (hb k (by omega))
    · exact h
    · exact absurd h (hx k (by omega))

end Sys2Proof.Machine
end

