-- ==== Sys2Proof/Laws/Memory.lean ====
section
/-! SUPPORT. The memory: read after write, the canonical form and that every memory operation keeps it, equal reads make
equal memories, and what a loaded image reads as (20_memory.md R50). -/

namespace Sys2Proof.Machine

theorem Memory.wfFrom_cons {lo k : Nat} {b : Byte} {m : Memory} :
    Memory.wfFrom lo ((k, b) :: m) = true ↔ lo ≤ k ∧ k < 4096 ∧ b ≠ 0#8 ∧ Memory.wfFrom (k + 1) m = true := by
  simp only [Memory.wfFrom, Config.memSize, Config.unwrittenByte, Bool.and_eq_true, decide_eq_true_eq, bne_iff_ne, and_assoc]

@[simp] theorem Memory.get_nil (a : Nat) : Memory.get [] a = 0#8 := rfl

theorem Memory.get_cons (k : Nat) (b : Byte) (m : Memory) (a : Nat) :
    Memory.get ((k, b) :: m) a = if k = a then b else Memory.get m a := rfl

/-- A listed entry, or none for the byte an unlisted address reads as. -/
theorem Memory.put_nil (a : Nat) (b : Byte) : Memory.put [] a b = if b = 0#8 then [] else [(a, b)] := rfl

theorem Memory.put_before {a k : Nat} (h : a < k) (b c : Byte) (m : Memory) :
    Memory.put ((k, c) :: m) a b = if b = 0#8 then (k, c) :: m else (a, b) :: (k, c) :: m := by
  unfold Memory.put
  rw [if_pos h]

theorem Memory.put_at (k : Nat) (b c : Byte) (m : Memory) :
    Memory.put ((k, c) :: m) k b = if b = 0#8 then m else (k, b) :: m := by
  unfold Memory.put
  rw [if_neg (Nat.lt_irrefl k), if_pos rfl]

theorem Memory.put_after {a k : Nat} (h : k < a) (b c : Byte) (m : Memory) :
    Memory.put ((k, c) :: m) a b = (k, c) :: Memory.put m a b := by
  have h1 : ¬ a < k := by omega
  have h2 : a ≠ k := by omega
  simp only [Memory.put, if_neg h1, if_neg h2]

/-- Addresses below the first one a memory may list read as unwritten. -/
theorem Memory.get_below {m : Memory} {lo a : Nat} (h : Memory.wfFrom lo m = true) (ha : a < lo) : Memory.get m a = 0#8 := by
  induction m generalizing lo with
  | nil => rfl
  | cons cell rest ih =>
    obtain ⟨k, b⟩ := cell
    obtain ⟨h1, _, _, h4⟩ := Memory.wfFrom_cons.mp h
    have hk : k ≠ a := by omega
    simp [Memory.get, hk, ih h4 (by omega)]

theorem Memory.wfFrom_weaken {m : Memory} {lo lo' : Nat} (h : Memory.wfFrom lo m = true) (hl : lo' ≤ lo) :
    Memory.wfFrom lo' m = true := by
  cases m with
  | nil => rfl
  | cons cell rest =>
    obtain ⟨h1, h2, h3, h4⟩ := Memory.wfFrom_cons.mp h
    exact Memory.wfFrom_cons.mpr ⟨by omega, h2, h3, h4⟩

/-- Addresses outside the address space read as unwritten. -/
theorem Memory.get_outside {m : Memory} {lo a : Nat} (h : Memory.wfFrom lo m = true) (ha : 4096 ≤ a) : Memory.get m a = 0#8 := by
  induction m generalizing lo with
  | nil => rfl
  | cons cell rest ih =>
    obtain ⟨k, b⟩ := cell
    obtain ⟨_, h2, _, h4⟩ := Memory.wfFrom_cons.mp h
    have hk : k ≠ a := by omega
    simp [Memory.get, hk, ih h4]

theorem Memory.put_wfFrom {m : Memory} {lo a : Nat} {b : Byte} (h : Memory.wfFrom lo m = true) (hl : lo ≤ a) (ha : a < 4096) :
    Memory.wfFrom lo (Memory.put m a b) = true := by
  induction m generalizing lo with
  | nil =>
    rw [Memory.put_nil]
    split
    · rfl
    · exact Memory.wfFrom_cons.mpr ⟨hl, ha, ‹_›, rfl⟩
  | cons cell rest ih =>
    obtain ⟨k, c⟩ := cell
    obtain ⟨h1, h2, h3, h4⟩ := Memory.wfFrom_cons.mp h
    rcases Nat.lt_trichotomy a k with hlt | rfl | hgt
    · rw [Memory.put_before hlt]
      split
      · exact h
      · exact Memory.wfFrom_cons.mpr ⟨hl, ha, ‹_›, Memory.wfFrom_cons.mpr ⟨hlt, h2, h3, h4⟩⟩
    · rw [Memory.put_at]
      split
      · exact Memory.wfFrom_weaken h4 (by omega)
      · exact Memory.wfFrom_cons.mpr ⟨h1, h2, ‹_›, h4⟩
    · rw [Memory.put_after hgt]
      exact Memory.wfFrom_cons.mpr ⟨h1, h2, h3, ih h4 hgt⟩

/-- A write keeps the canonical form. -/
theorem Memory.put_wf {m : Memory} {a : Nat} {b : Byte} (h : Memory.wf m = true) (ha : a < 4096) :
    Memory.wf (Memory.put m a b) = true :=
  Memory.put_wfFrom h (Nat.zero_le a) ha

theorem Memory.get_put_from {m : Memory} {lo : Nat} (a : Nat) (b : Byte) (a' : Nat) (h : Memory.wfFrom lo m = true) :
    Memory.get (Memory.put m a b) a' = if a' = a then b else Memory.get m a' := by
  induction m generalizing lo with
  | nil =>
    rw [Memory.put_nil]
    split <;> simp_all [Memory.get_cons, eq_comm (a := a')]
  | cons cell rest ih =>
    obtain ⟨k, c⟩ := cell
    obtain ⟨_, _, _, h4⟩ := Memory.wfFrom_cons.mp h
    rcases Nat.lt_trichotomy a k with hlt | rfl | hgt
    · have hbelow : k ≠ a ∧ Memory.get rest a = 0#8 := ⟨by omega, Memory.get_below h4 (by omega)⟩
      rw [Memory.put_before hlt]
      by_cases e : a' = a
      · subst e
        split <;> simp_all [Memory.get_cons]
      · have : a ≠ a' := Ne.symm e
        split <;> simp_all [Memory.get_cons]
    · have hbelow : Memory.get rest a = 0#8 := Memory.get_below h4 (by omega)
      rw [Memory.put_at]
      simp only [apply_ite (Memory.get · a'), Memory.get_cons]
      split <;> split <;> simp_all [eq_comm (a := a')]
    · have hne : k ≠ a := by omega
      rw [Memory.put_after hgt, Memory.get_cons, Memory.get_cons, ih h4]
      split <;> split <;> simp_all

/-- Read after write: the written byte there, every other byte as before. -/
theorem Memory.get_put {m : Memory} (a : Nat) (b : Byte) (a' : Nat) (h : Memory.wf m = true) :
    Memory.get (Memory.put m a b) a' = if a' = a then b else Memory.get m a' :=
  Memory.get_put_from a b a' h

/-- The same on states (00_scope.md R11). -/
theorem State.memRead_memWrite (s : State) (a : Addr) (b : Byte) (a' : Addr) (h : Memory.wf s.mem = true) :
    (s.memWrite a b).memRead a' = if a' = a then b else s.memRead a' := by
  simp only [State.memRead, State.memWrite, Memory.get_put _ _ _ h, BitVec.toNat_inj]

theorem State.memWrite_wf (s : State) (a : Addr) (b : Byte) (h : Memory.wf s.mem = true) :
    Memory.wf (s.memWrite a b).mem = true :=
  Memory.put_wf h a.isLt

theorem Memory.ext_from {m m' : Memory} {lo : Nat} (h : Memory.wfFrom lo m = true) (h' : Memory.wfFrom lo m' = true)
    (e : ∀ a, Memory.get m a = Memory.get m' a) : m = m' := by
  induction m generalizing m' lo with
  | nil =>
    cases m' with
    | nil => rfl
    | cons cell rest =>
      obtain ⟨k, b⟩ := cell
      obtain ⟨_, _, h3, _⟩ := Memory.wfFrom_cons.mp h'
      exact absurd (by simpa [Memory.get_cons] using (e k).symm) h3
  | cons cell rest ih =>
    obtain ⟨k, b⟩ := cell
    obtain ⟨h1, h2, h3, h4⟩ := Memory.wfFrom_cons.mp h
    cases m' with
    | nil => exact absurd (by simpa [Memory.get_cons] using e k) h3
    | cons cell' rest' =>
      obtain ⟨k', b'⟩ := cell'
      obtain ⟨h1', h2', h3', h4'⟩ := Memory.wfFrom_cons.mp h'
      have hk : k = k' := by
        rcases Nat.lt_trichotomy k k' with hlt | he | hgt
        · have hne : k' ≠ k := by omega
          have := e k
          simp only [Memory.get, if_true, hne, if_false, Memory.get_below h4' (show k < k' + 1 by omega)] at this
          exact absurd this h3
        · exact he
        · have hne : k ≠ k' := by omega
          have := e k'
          simp only [Memory.get, if_true, hne, if_false, Memory.get_below h4 (show k' < k + 1 by omega)] at this
          exact absurd this.symm h3'
      subst hk
      have hb : b = b' := by simpa [Memory.get_cons] using e k
      subst hb
      refine congrArg _ (ih h4 h4' fun a => ?_)
      by_cases ha : k = a
      · subst ha; rw [Memory.get_below h4 (by omega), Memory.get_below h4' (by omega)]
      · simpa [Memory.get, ha] using e a

theorem Memory.ofImageFrom_cons (lo : Nat) (b : Byte) (bs : List Byte) :
    Memory.ofImageFrom lo (b :: bs) =
      if b = 0#8 then Memory.ofImageFrom (lo + 1) bs else (lo, b) :: Memory.ofImageFrom (lo + 1) bs := rfl

theorem Memory.ofImageFrom_wfFrom {image : List Byte} {lo : Nat} (h : lo + image.length ≤ 4096) :
    Memory.wfFrom lo (Memory.ofImageFrom lo image) = true := by
  induction image generalizing lo with
  | nil => rfl
  | cons b bs ih =>
    rw [List.length_cons] at h
    have hrest := ih (lo := lo + 1) (by omega)
    rw [Memory.ofImageFrom_cons]
    split
    · exact Memory.wfFrom_weaken hrest (Nat.le_succ lo)
    · exact Memory.wfFrom_cons.mpr ⟨Nat.le_refl lo, by omega, ‹_›, hrest⟩

/-- What an image reads as: its bytes from `lo` on, 0x00 elsewhere (20_memory.md R50). -/
theorem Memory.get_ofImageFrom (image : List Byte) (lo a : Nat) :
    Memory.get (Memory.ofImageFrom lo image) a = if lo ≤ a then image.getD (a - lo) 0#8 else 0#8 := by
  induction image generalizing lo with
  | nil => simp [Memory.ofImageFrom]
  | cons b bs ih =>
    have ih' := ih (lo + 1)
    rw [Memory.ofImageFrom_cons]
    rcases Nat.lt_trichotomy a lo with h | rfl | h
    · rw [if_neg (show ¬ lo + 1 ≤ a by omega)] at ih'
      rw [if_neg (show ¬ lo ≤ a by omega)]
      by_cases hb : b = 0#8
      · rw [if_pos hb, ih']
      · rw [if_neg hb, Memory.get_cons, if_neg (by omega), ih']
    · rw [if_neg (show ¬ a + 1 ≤ a by omega)] at ih'
      by_cases hb : b = 0#8
      · rw [if_pos hb, ih']; simp [hb]
      · rw [if_neg hb, Memory.get_cons, if_pos rfl]; simp
    · have e : a - lo = (a - (lo + 1)) + 1 := by omega
      rw [if_pos (show lo + 1 ≤ a by omega)] at ih'
      rw [if_pos (show lo ≤ a by omega), e, List.getD_cons_succ]
      by_cases hb : b = 0#8
      · rw [if_pos hb, ih']
      · rw [if_neg hb, Memory.get_cons, if_neg (by omega), ih']

end Sys2Proof.Machine
end

