-- ==== Sys2Proof/Laws/PerInstr.lean ====
section
/-! SUPPORT. Statements for all instructions, one lemma per constructor. -/

namespace Sys2Proof.Laws

/-- The word an instruction is encoded as selects the dispatch-table row of its own operation (30_encoding.md R85, R90). -/
def EncodedRow.Statement (i : Instr) : Prop :=
  Op.ofWord (encode i) = some i.op

/-- A word of one of the families 2 to 8 is not in family 0. -/
theorem EncodedRow.of_nibbles {w : Word} {f d : Nibble} (hf : w.extractLsb' 12 4 = f) (hd : w.extractLsb' 0 4 = d)
    (h0 : f ≠ 0#4) : Op.ofWord w = Op.ofNibbles f d := by
  have e0 : w ≠ 0x0000#16 := by rintro rfl; exact h0 (hf.symm.trans rfl)
  have e1 : w ≠ 0x00EE#16 := by rintro rfl; exact h0 (hf.symm.trans rfl)
  simp only [Op.ofWord, if_neg e0, if_neg e1, hf, hd]

theorem EncodedRow.halt : EncodedRow.Statement .halt := rfl

theorem EncodedRow.ret : EncodedRow.Statement .ret := rfl

theorem EncodedRow.call (addr : Addr) : EncodedRow.Statement (.call addr) := by
  have hf : (encode (.call addr)).extractLsb' 12 4 = 2#4 := by
    ext i hi; interval_cases i <;> simp [encode]
  exact (EncodedRow.of_nibbles hf rfl (by decide)).trans rfl

theorem EncodedRow.se (x : Reg) (kk : Byte) : EncodedRow.Statement (.se x kk) := by
  have hf : (encode (.se x kk)).extractLsb' 12 4 = 3#4 := by
    ext i hi; interval_cases i <;> simp [encode]
  exact (EncodedRow.of_nibbles hf rfl (by decide)).trans rfl

theorem EncodedRow.sne (x : Reg) (kk : Byte) : EncodedRow.Statement (.sne x kk) := by
  have hf : (encode (.sne x kk)).extractLsb' 12 4 = 4#4 := by
    ext i hi; interval_cases i <;> simp [encode]
  exact (EncodedRow.of_nibbles hf rfl (by decide)).trans rfl

theorem EncodedRow.ldImm (x : Reg) (kk : Byte) : EncodedRow.Statement (.ldImm x kk) := by
  have hf : (encode (.ldImm x kk)).extractLsb' 12 4 = 6#4 := by
    ext i hi; interval_cases i <;> simp [encode]
  exact (EncodedRow.of_nibbles hf rfl (by decide)).trans rfl

theorem EncodedRow.addn (x : Reg) (d : Nibble) : EncodedRow.Statement (.addn x d) := by
  have hf : (encode (.addn x d)).extractLsb' 12 4 = 7#4 := by
    ext i hi; interval_cases i <;> simp [encode]
  exact (EncodedRow.of_nibbles hf rfl (by decide)).trans rfl

theorem EncodedRow.ldReg (x y : Reg) : EncodedRow.Statement (.ldReg x y) := by
  have hf : (encode (.ldReg x y)).extractLsb' 12 4 = 8#4 := by
    ext i hi; interval_cases i <;> simp [encode]
  have hd : (encode (.ldReg x y)).extractLsb' 0 4 = 0#4 := by
    ext i hi; interval_cases i <;> simp [encode]
  exact (EncodedRow.of_nibbles hf hd (by decide)).trans rfl

theorem EncodedRow.or (x y : Reg) : EncodedRow.Statement (.or x y) := by
  have hf : (encode (.or x y)).extractLsb' 12 4 = 8#4 := by
    ext i hi; interval_cases i <;> simp [encode]
  have hd : (encode (.or x y)).extractLsb' 0 4 = 1#4 := by
    ext i hi; interval_cases i <;> simp [encode]
  exact (EncodedRow.of_nibbles hf hd (by decide)).trans rfl

theorem EncodedRow.and (x y : Reg) : EncodedRow.Statement (.and x y) := by
  have hf : (encode (.and x y)).extractLsb' 12 4 = 8#4 := by
    ext i hi; interval_cases i <;> simp [encode]
  have hd : (encode (.and x y)).extractLsb' 0 4 = 2#4 := by
    ext i hi; interval_cases i <;> simp [encode]
  exact (EncodedRow.of_nibbles hf hd (by decide)).trans rfl

theorem EncodedRow.xor (x y : Reg) : EncodedRow.Statement (.xor x y) := by
  have hf : (encode (.xor x y)).extractLsb' 12 4 = 8#4 := by
    ext i hi; interval_cases i <;> simp [encode]
  have hd : (encode (.xor x y)).extractLsb' 0 4 = 3#4 := by
    ext i hi; interval_cases i <;> simp [encode]
  exact (EncodedRow.of_nibbles hf hd (by decide)).trans rfl

theorem EncodedRow.add (x y : Reg) : EncodedRow.Statement (.add x y) := by
  have hf : (encode (.add x y)).extractLsb' 12 4 = 8#4 := by
    ext i hi; interval_cases i <;> simp [encode]
  have hd : (encode (.add x y)).extractLsb' 0 4 = 4#4 := by
    ext i hi; interval_cases i <;> simp [encode]
  exact (EncodedRow.of_nibbles hf hd (by decide)).trans rfl

end Sys2Proof.Laws
end

