-- ==== Sys2Proof/Laws/Run.lean ====
section
/-! SUPPORT. Fault entry in the terms of Safety.lean, runs of several steps, and the quantity that every step
of a RUNNING block lowers (70_reset_and_hazards.md R187). -/

namespace Sys2Proof.Machine

/-- Fault entry keeps everything but the run state and the fault record (60_exceptions.md R155). -/
theorem State.raise_faultedFrom (s : State) (c : FaultCause) (op : Word) : FaultedFrom s (s.raise c op) c.code op :=
  ⟨rfl, rfl, rfl, rfl, rfl, fun _ => rfl, ⟨rfl, fun _ => rfl⟩, fun _ => rfl⟩

/-- A run of k + 1 steps is one step and a run of k. -/
theorem run_succ {s t : State} (k : Nat) (h : step s = .next t) : Host.Core.run core (k + 1) s = Host.Core.run core k t := by
  simp only [Host.Core.run, show core.step s = .next t from h]

/-- The fetched word, seen as the word at pc. -/
theorem State.wordAt_pc (s : State) : s.wordAt s.pc = s.fetch :=
  State.fetch_congr rfl rfl

theorem State.wordAt_congr {s t : State} (h : t.mem = s.mem) (a : Word) : t.wordAt a = s.wordAt a :=
  State.fetch_congr rfl h

/-- A fetched word was fetched in bounds (20_memory.md R53). -/
theorem State.pc_le_of_fetch {s : State} {op : Word} (h : s.fetch = some op) : s.pc.toNat ≤ 0xFFE := by
  by_contra hc
  rw [State.fetch_none_iff.mpr (by omega)] at h
  cases h

/-! ### The quantity of 70_reset_and_hazards.md R187 -/

/-- How many fetches pc can still make at one depth: each adds at least 2 and needs pc at most 0xFFE. -/
def fetchesLeft (pc : Word) : Nat :=
  (0x1000 - pc.toNat) / 2

/-- What one fetch is worth with `k` free slots: the steps a call from there could spend, and itself. -/
def fetchWeight : Nat → Nat
  | 0 => 1
  | k + 1 => 2048 * fetchWeight k + 2

/-- The part of the n suspended callers. -/
def suspendedRank (s : State) : Nat → Nat
  | 0 => 0
  | j + 1 => suspendedRank s j + (fetchesLeft (s.getSlot (BitVec.ofNat 4 j)) * fetchWeight (16 - j) + 1)

/-- A bound on the steps left. -/
def State.rank (s : State) : Nat :=
  suspendedRank s s.sp.toNat + fetchesLeft s.pc * fetchWeight (16 - s.sp.toNat) + 1

theorem fetchesLeft_le (pc : Word) : fetchesLeft pc ≤ 2048 := by
  unfold fetchesLeft; omega

theorem fetchWeight_pos (k : Nat) : 1 ≤ fetchWeight k := by
  cases k <;> simp only [fetchWeight] <;> omega

theorem fetchesLeft_lower {p q : Word} (h : p.toNat ≤ 0xFFE) (hq : p.toNat + 2 ≤ q.toNat) :
    fetchesLeft q + 1 ≤ fetchesLeft p := by
  unfold fetchesLeft; omega

theorem suspendedRank_congr {s t : State} {n : Nat} (hn : n ≤ 16)
    (h : ∀ j : BitVec 4, j.toNat < n → t.getSlot j = s.getSlot j) : suspendedRank t n = suspendedRank s n := by
  induction n with
  | zero => rfl
  | succ n ih =>
    simp only [suspendedRank]
    rw [ih (by omega) (fun j hj => h j (by omega)), h _ (by simp; omega)]

/-- Moving pc forward at the same depth lowers the rank. -/
theorem State.rank_move {s t : State} (hsp : s.sp.toNat ≤ 16) (hpc : s.pc.toNat ≤ 0xFFE) (e1 : t.sp = s.sp)
    (e2 : ∀ j, t.getSlot j = s.getSlot j) (e3 : s.pc.toNat + 2 ≤ t.pc.toNat) : t.rank < s.rank := by
  unfold State.rank
  rw [e1, suspendedRank_congr (s := s) hsp (fun j _ => e2 j)]
  have hw := fetchWeight_pos (16 - s.sp.toNat)
  have hm := Nat.mul_le_mul_right (fetchWeight (16 - s.sp.toNat)) (fetchesLeft_lower hpc e3)
  rw [Nat.add_mul] at hm
  omega

/-- A return lowers the rank: its caller was counted as suspended. -/
theorem State.rank_return {s : State} {target : Word} (hsp : s.sp.toNat ≤ 16) (h0 : s.sp ≠ 0)
    (hv : s.stack[(s.sp - 1).toNat]? = some target) : State.rank { s with pc := target, sp := s.sp - 1 } < s.rank := by
  have hn : s.sp.toNat ≠ 0 := fun e => h0 (BitVec.eq_of_toNat_eq e)
  have hs1 := State.sp_sub_one (s := s) (by omega)
  have hs2 : (s.sp - 1).toNat = s.sp.toNat - 1 := by omega
  obtain ⟨n, hn⟩ : ∃ n, s.sp.toNat = n + 1 := ⟨s.sp.toNat - 1, by omega⟩
  have hj : (BitVec.ofNat 4 n).toNat = n := by simp; omega
  have ht : target = s.getSlot (BitVec.ofNat 4 n) := by
    rw [State.slot_below_sp s (BitVec.ofNat 4 n) (by omega)] at hv
    exact (Option.some.inj hv).symm
  unfold State.rank
  simp only [hs2, hn, Nat.add_sub_cancel, suspendedRank]
  rw [suspendedRank_congr (s := s) (t := { s with pc := target, sp := s.sp - 1 }) (by omega) (fun _ _ => rfl), ← ht]
  omega

/-- A call lowers the rank: what it adds at the new depth is less than the fetch it spends. -/
theorem State.rank_call {s : State} (addr : Addr) (hsp : s.sp.toNat < 16) (hpc : s.pc.toNat ≤ 0xFFE) :
    ((s.push (s.pc + 2)).setPc (addr.setWidth 16)).rank < s.rank := by
  have h2 : (s.pc + 2).toNat = s.pc.toNat + 2 := by rw [BitVec.toNat_add]; simp; omega
  have h16 : 16 - s.sp.toNat = (16 - (s.sp.toNat + 1)) + 1 := by omega
  unfold State.rank
  simp only [State.setPc_sp, State.push_sp, State.setPc_pc, State.sp_add_one hsp, suspendedRank]
  rw [suspendedRank_congr (s := s) (by omega)
      (fun j hj => by rw [State.getSlot_setPc, State.getSlot_push, if_neg (by omega)]),
    State.getSlot_setPc, State.getSlot_push, if_pos (by simp; omega), h16]
  simp only [fetchWeight]
  generalize fetchWeight (16 - (s.sp.toNat + 1)) = w
  have e1 := Nat.mul_le_mul_right w (fetchesLeft_le (addr.setWidth 16))
  have e2 := Nat.mul_le_mul_right (2048 * w + 2) (fetchesLeft_lower hpc (q := s.pc + 2) (by omega))
  rw [Nat.add_mul] at e2
  omega

end Sys2Proof.Machine
end

