-- ==== Sys2Proof/Tests/Slice0.lean ====
section
/-! SUPPORT. Tests of the model's own definitions. Expected results come from the worked examples and vectors of
95_test_vectors.md, named in each comment, or from the rule named there; then the witnesses that the hypotheses of the
statements in Certificates/Slice0/Obligations.lean can be met. -/

namespace Sys2Proof.Tests

open Sys2Proof Sys2Proof.Machine

/-! ### WellFormed: one ill-formed number for each check (30_encoding.md R90, R92) -/

theorem test_register_16_refused : OperandKind.reg.inRange 16 = false ∧ OperandKind.reg.inRange 15 = true := by decide
theorem test_nibble_16_refused : OperandKind.nibble.inRange 16 = false ∧ OperandKind.nibble.inRange 15 = true := by decide
theorem test_byte_256_refused : OperandKind.byte.inRange 256 = false ∧ OperandKind.byte.inRange 255 = true := by decide
theorem test_addr_4096_refused : OperandKind.addr.inRange 4096 = false ∧ OperandKind.addr.inRange 4095 = true := by decide
theorem test_assemble_refuses :
    assemble .addn [1, 16] = none ∧ assemble .call [0x1000] = none ∧ assemble .se [16, 0] = none ∧
      assemble .ldImm [0, 256] = none ∧ assemble .halt [0] = none := by decide
theorem test_assemble_accepts :
    assemble .addn [1, 15] = some (.addn 1 15) ∧ assemble .call [0xABC] = some (.call 0xABC) ∧
      assemble .add [0xF, 0xF] = some (.add 0xF 0xF) := by decide

/-! ### Decode: words written out bit by bit from opcode_table.json's encoding strings -/

theorem test_decode_halt : decodeWord 0b0000000000000000#16 = some .halt := by decide
theorem test_decode_ret : decodeWord 0b0000000011101110#16 = some .ret := by decide
theorem test_decode_call : decodeWord 0b0010101010111100#16 = some (.call 0xABC) := by decide
theorem test_decode_se : decodeWord 0b0011001101000010#16 = some (.se 0x3 0x42) := by decide
theorem test_decode_sne : decodeWord 0b0100001101000001#16 = some (.sne 0x3 0x41) := by decide
theorem test_decode_ldImm : decodeWord 0b0110101001111111#16 = some (.ldImm 0xA 0x7F) := by decide
theorem test_decode_addn : decodeWord 0b0111000111110101#16 = some (.addn 0x1 5) := by decide
theorem test_decode_ldReg : decodeWord 0b1000010011110000#16 = some (.ldReg 0x4 0xF) := by decide
theorem test_decode_or : decodeWord 0b1000000100100001#16 = some (.or 0x1 0x2) := by decide
theorem test_decode_and : decodeWord 0b1000001100100010#16 = some (.and 0x3 0x2) := by decide
theorem test_decode_xor : decodeWord 0b1000000100100011#16 = some (.xor 0x1 0x2) := by decide
theorem test_decode_add : decodeWord 0b1000000000010100#16 = some (.add 0x0 0x1) := by decide

/-- The edges of each range of illegal words (30_encoding.md R87), inside and outside. -/
theorem test_decode_edges_family0 :
    decodeWord 0x0001 = none ∧ decodeWord 0x00ED = none ∧ decodeWord 0x00EF = none ∧ decodeWord 0x0FFF = none := by decide
theorem test_decode_edges_families : decodeWord 0x1000 = none ∧ decodeWord 0x1FFF = none ∧ decodeWord 0x2000 = some (.call 0) ∧
    decodeWord 0x4FFF = some (.sne 0xF 0xFF) ∧ decodeWord 0x5000 = none ∧ decodeWord 0x5FFF = none := by decide
theorem test_decode_edges_functions : decodeWord 0x8000 = some (.ldReg 0 0) ∧ decodeWord 0x8FF4 = some (.add 0xF 0xF) ∧
    decodeWord 0x8005 = none ∧ decodeWord 0x8FFF = none ∧ decodeWord 0x9000 = none ∧ decodeWord 0xFFFF = none := by decide

theorem test_decode_bytes :
    (match decode [0x80, 0x14, 0xAA] with | .ok (i, rest) => decide (i = .add 0 1 ∧ rest = [0xAA]) | .error _ => false) = true ∧
    (match decode [0x12, 0x00] with | .error e => decide (e = .unimplemented 0x1200) | .ok _ => false) = true ∧
    (match decode [0x80] with | .error e => decide (e = .truncated) | .ok _ => false) = true := by decide

/-! ### One step -/

/-- A state about to run the word `w` at address `a`, RUNNING, everything else as `s`. -/
def at_ (s : State) (a : Word) (w : Nat) : State :=
  (s.setPc a).withFetchWord 16 w

/-- Whether a step answers a next state that meets `p`. -/
def after (s : State) (p : State → Bool) : Bool :=
  match step s with
  | .next t => p t
  | .fault _ => false
  | .refused _ => false

/-- The reset state with some registers set. -/
def regs (presets : List (Reg × Byte)) : State :=
  presets.foldl (fun s p => s.setV p.1 p.2) State.reset

/-- The reset state with `sp` and one slot set. -/
def stacked (sp : BitVec 5) (j : Nat) (value : Word) : State :=
  { State.reset with sp := sp, stack := State.reset.stack.setIfInBounds j value }

/-- FD1. -/
theorem test_fetch_big_endian : after (at_ State.reset 0x010 0xABCD) (fun t =>
    t.runState == .faulted && t.faultKind == 2 && t.faultPc == 0x010 && t.faultOp == 0xABCD && t.pc == 0x010) = true := by decide
/-- FD2: an odd pc. -/
theorem test_fetch_odd : after (at_ State.reset 0x011 0xCD61) (fun t =>
    t.faultKind == 2 && t.faultPc == 0x011 && t.faultOp == 0xCD61) = true := by decide
/-- FD4: pc = 0xFFF. -/
theorem test_fetch_at_last_byte : after { State.reset with pc := 0xFFF, runState := .running } (fun t =>
    t.runState == .faulted && t.faultKind == 1 && t.faultPc == 0x0FFF && t.faultOp == 0 && t.pc == 0xFFF) = true := by decide
/-- 30_encoding.md R80: no step in IDLE. -/
theorem test_idle_holds : after State.reset (fun t => t == State.reset) = true := by decide

/-- FD3, HALT at 0xFFE. -/
theorem test_halt_at_end : after (at_ State.reset 0xFFE 0x0000) (fun t => t.runState == .halted && t.pc == 0x1000) = true := by decide
/-- CF2, HALT with a non-empty stack. -/
theorem test_halt_keeps_stack : after (at_ (stacked 2 0 0x0002) 0x040 0x0000) (fun t =>
    t.runState == .halted && t.pc == 0x042 && t.sp == 2) = true := by decide
/-- CF5. -/
theorem test_ret_from_sixteen : after (at_ (stacked 16 15 0x0ABC) 0x200 0x00EE) (fun t =>
    t.sp == 15 && t.pc == 0x0ABC && t.getSlot 15 == 0x0ABC && t.runState == .running) = true := by decide
/-- CF4. -/
theorem test_ret_underflow : after (at_ State.reset 0x100 0x00EE) (fun t =>
    t.runState == .faulted && t.faultKind == 4 && t.faultPc == 0x100 && t.faultOp == 0x00EE && t.pc == 0x100 && t.sp == 0) = true := by
  decide
/-- CF7. -/
theorem test_call_last_slot : after (at_ (stacked 15 0 0x0002) 0x010 0x2300) (fun t =>
    t.getSlot 15 == 0x0012 && t.getSlot 0 == 0x0002 && t.sp == 16 && t.pc == 0x300) = true := by decide
/-- CF8. -/
theorem test_call_overflow : after (at_ (stacked 16 15 0x0ABC) 0x010 0x2300) (fun t =>
    t.faultKind == 3 && t.faultPc == 0x010 && t.faultOp == 0x2300 && t.pc == 0x010 && t.sp == 16 && t.getSlot 15 == 0x0ABC) = true := by
  decide
/-- SK9: a taken skip at 0xFFE. -/
theorem test_se_at_end : after (at_ State.reset 0xFFE 0x3000) (fun t => t.pc == 0x1002 && t.runState == .running) = true := by decide
/-- SK2. -/
theorem test_se_not_taken : after (at_ (regs [(3, 0x42)]) 0x010 0x3341) (fun t => t.pc == 0x012) = true := by decide
/-- SK4. -/
theorem test_sne_taken : after (at_ (regs [(3, 0x42)]) 0x010 0x4341) (fun t => t.pc == 0x014) = true := by decide
/-- SK7. -/
theorem test_sne_not_taken : after (at_ (regs [(0, 0xFF)]) 0x010 0x40FF) (fun t => t.pc == 0x012) = true := by decide
/-- IM1. -/
theorem test_ldImm : after (at_ State.reset 0 0x6A7F) (fun t => t.getV 0xA == 0x7F && t.pc == 2) = true := by decide
/-- IM2. -/
theorem test_ldImm_flag_register : after (at_ State.reset 0 0x6F02) (fun t => t.getV 0xF == 0x02) = true := by decide
/-- IM3: the ignored nibble, no flag. -/
theorem test_addn_ignores_nibble : after (at_ (regs [(1, 0x10), (0xF, 0x55)]) 0 0x7125) (fun t =>
    t.getV 1 == 0x15 && t.getV 0xF == 0x55) = true := by decide
/-- IM5: wraps. -/
theorem test_addn_wraps : after (at_ (regs [(2, 0xFA)]) 0 0x720F) (fun t => t.getV 2 == 0x09 && t.getV 0xF == 0) = true := by decide
/-- AL3. -/
theorem test_ldReg_from_flag : after (at_ (regs [(0xF, 0x01)]) 0 0x84F0) (fun t => t.getV 4 == 0x01) = true := by decide
/-- AL4. -/
theorem test_or : after (at_ (regs [(1, 0x0F), (2, 0xF0), (0xF, 0x07)]) 0 0x8121) (fun t =>
    t.getV 1 == 0xFF && t.getV 0xF == 0x07) = true := by decide
/-- AL8. -/
theorem test_or_into_flag : after (at_ (regs [(0xF, 0x01), (2, 0xF0)]) 0 0x8F21) (fun t => t.getV 0xF == 0xF1) = true := by decide
/-- AL5. -/
theorem test_and : after (at_ (regs [(1, 0x3C), (2, 0x0F)]) 0 0x8122) (fun t => t.getV 1 == 0x0C) = true := by decide
/-- AL6. -/
theorem test_xor : after (at_ (regs [(1, 0xFF), (2, 0x0F)]) 0 0x8123) (fun t => t.getV 1 == 0xF0) = true := by decide
/-- AL7. -/
theorem test_xor_clears : after (at_ (regs [(1, 0xA5)]) 0 0x8113) (fun t => t.getV 1 == 0) = true := by decide
/-- AL12. -/
theorem test_add_carries : after (at_ (regs [(0, 0xFF), (1, 0xFF)]) 0 0x8014) (fun t =>
    t.getV 0 == 0xFE && t.getV 0xF == 1 && t.pc == 2) = true := by decide
/-- AL17: the carry wins over the sum. -/
theorem test_add_into_flag : after (at_ (regs [(0xF, 0x05), (2, 0xFF)]) 0 0x8F24) (fun t => t.getV 0xF == 1) = true := by decide

/-! ### Memory and host ports -/

/-- Writing 0x00 removes the entry, so equal memories are equal lists (20_memory.md R50). -/
theorem test_memory_canonical : Memory.put (Memory.put (Memory.put [] 5 7) 3 9) 5 0 = [(3, 9)] := by decide
theorem test_memory_wf_refuses :
    Memory.wf [(3, 9), (3, 1)] = false ∧ Memory.wf [(3, 0)] = false ∧ Memory.wf [(4096, 1)] = false ∧
      Memory.wf [(5, 1), (3, 1)] = false ∧ Memory.wf [(3, 9), (4095, 1)] = true := by decide
/-- 70_reset_and_hazards.md R182, with the image of W8. -/
theorem test_launch : (launch [0x21, 0x00] [(1, 7), (1, 9)] none).map (fun s =>
    (s.runState, s.pc, s.getV 1, s.memRead 0, s.memRead 1, s.memRead 2)) = some (.running, 0, 9, 0x21, 0x00, 0x00) := by decide
theorem test_host_refused_while_running : HostAction.apply (.writePc 4) (at_ State.reset 0 0x0000) = none ∧
    (at_ State.reset 0 0x0000).hostView = none := by decide

/-! ### Witnesses: the hypotheses of each statement, met together -/

/-- A RUNNING state. -/
def running (pc : Word) (sp : BitVec 5) : State :=
  { State.reset with pc := pc, sp := sp, runState := .running }

theorem witness_DecodeAfterEncode : (Instr.call 0xFFF).wellFormed = true ∧ (Instr.addn 0xF 0xF).wellFormed = true := by decide
theorem witness_EncodeAfterDecode :
    decodeWord 0x71F5 = some (.addn 1 5) ∧ decodeWord 0x8FF4 = some (.add 0xF 0xF) := by decide
theorem witness_DispatchRowsDisjoint :
    (∃ r ∈ dispatchTable, r.selects 0x8FF4 = true) ∧ dispatchTable.reverse.Perm dispatchTable ∧
      ((0x0FFF : Word).toNat < 0x1000 ∧ (0x0FFF : Word) ≠ 0x0000 ∧ (0x0FFF : Word) ≠ 0x00EE) :=
  ⟨by decide, List.reverse_perm _, by decide⟩
theorem witness_IllegalWordsAreTheListed :
    decodeWord 0x00ED = none ∧ decodeWord 0x00EF = none ∧ decodeWord 0x1FFF = none ∧ decodeWord 0x5FFF = none ∧
      decodeWord 0x8FF5 = none ∧ decodeWord 0x9000 = none := by decide
theorem witness_AddnIgnoresSecondNibble : 15 < 16 := by decide
theorem witness_AssemblerTakesOperandsInRange : assemble .se [15, 255] = some (.se 15 255) := by decide
theorem witness_FetchReadsTwoBytesBigEndian : (running 0xFFE 0).pc.toNat ≤ 0xFFE ∧ 0xFFE < (running 0xFFF 0).pc.toNat := by decide
theorem witness_OutOfBoundsFetchFaults :
    (running 0xFFF 0).runState = .running ∧ 0xFFE < (running 0xFFF 0).pc.toNat := by decide
theorem witness_UnimplementedOpcodeFaults :
    (at_ State.reset 0xFFE 0x1000).runState = .running ∧ (at_ State.reset 0xFFE 0x1000).fetch = some 0x1000 ∧
      ∀ r ∈ dispatchTable, r.selects 0x1000 = false := by decide
theorem witness_StepRunsDecodedInstruction :
    (running 0xFFE 0).runState = .running ∧ (running 0xFFE 0).pc.toNat ≤ 0xFFE ∧ Instr.halt.wellFormed = true ∧
      decodeWord (joinBytes ((running 0xFFE 0).memRead ((running 0xFFE 0).pc.setWidth 12))
        ((running 0xFFE 0).memRead (((running 0xFFE 0).pc + 1).setWidth 12))) = some .halt := by decide
theorem witness_NoStepUnlessRunning : State.reset.runState ≠ .running := by decide
theorem witness_PlacedWordIsFetched : 0xFFFF < 0x10000 ∧ (State.reset.setPc 0xFFE).pc.toNat ≤ 0xFFE ∧
    Memory.wf (State.reset.setPc 0xFFE).mem = true ∧ decodeTableWord 16 0x8FF4 = some (.add 0xF 0xF) := by decide
theorem witness_ReturnPopsOrUnderflows :
    (1 ≤ (running 0 1).sp.toNat ∧ (running 0 1).sp.toNat ≤ 16) ∧ (1 ≤ (running 0 16).sp.toNat ∧ (running 0 16).sp.toNat ≤ 16) ∧
      (15 : BitVec 4).toNat + 1 = (running 0 16).sp.toNat ∧ (running 0 0).sp = 0 := by decide
theorem witness_CallPushesOrOverflows :
    (running 0 0).sp.toNat < 16 ∧ (running 0 15).sp.toNat < 16 ∧ (running 0 16).sp = 16 := by decide
theorem witness_AddWrapsAndSetsCarry : (0xE : Reg) ≠ 0xF ∧ (0xD : Reg) ≠ 0xE ∧ (0xD : Reg) ≠ 0xF := by decide
theorem witness_OnlyTheDestinationIsWritten :
    ∃ t, exec (.ldImm 3 7) State.reset = .next t ∧ t.getV 3 ≠ State.reset.getV 3 := ⟨_, rfl, by decide⟩
theorem witness_OnlyTheDestinationIsWritten_flag :
    ∃ t, exec (.add 3 3) (regs [(3, 0x80)]) = .next t ∧ t.getV 0xF ≠ (regs [(3, 0x80)]).getV 0xF := ⟨_, rfl, by decide⟩
theorem witness_FlagIsNoImplicitInput :
    (OperandKind.reg, 15) ∉ (Instr.add 0 14).operands ∧ ∃ t, exec (.add 0 14) State.reset = .next t := ⟨by decide, _, rfl⟩
theorem witness_StackPointerMovesByOne_call :
    (at_ State.reset 0 0x2100).sp.toNat ≤ 16 ∧ ∃ t, step (at_ State.reset 0 0x2100) = .next t ∧
      t.sp ≠ (at_ State.reset 0 0x2100).sp ∧ t.getSlot 0 ≠ (at_ State.reset 0 0x2100).getSlot 0 :=
  ⟨by decide, _, rfl, by decide, by decide⟩
theorem witness_StackPointerMovesByOne_ret :
    (at_ (stacked 16 15 2) 0 0x00EE).sp.toNat ≤ 16 ∧ ∃ t, step (at_ (stacked 16 15 2) 0 0x00EE) = .next t ∧
      t.sp ≠ (at_ (stacked 16 15 2) 0 0x00EE).sp := ⟨by decide, _, rfl, by decide⟩
theorem witness_PcNeverWraps :
    (at_ (stacked 16 15 0x1000) 0xFFE 0x00EE).runState = .running ∧ (at_ (stacked 16 15 0x1000) 0xFFE 0x00EE).pc.toNat ≤ 0xFFE ∧
      (∀ j, j.toNat < (at_ (stacked 16 15 0x1000) 0xFFE 0x00EE).sp.toNat →
        ((at_ (stacked 16 15 0x1000) 0xFFE 0x00EE).getSlot j).toNat ≤ 0x1000) ∧
      ∃ t, step (at_ (stacked 16 15 0x1000) 0xFFE 0x00EE) = .next t := ⟨by decide, by decide, by decide, _, rfl⟩
theorem witness_MemoryIsConstantInARun :
    (∃ t, step (at_ State.reset 0 0x2100) = .next t) ∧ (running 0 0).runState = .running ∧
      ∃ t, HostAction.reset.apply (running 0 0) = some t := ⟨⟨_, rfl⟩, rfl, _, rfl⟩
theorem witness_StepSeesOnlyTheFetchedBytes :
    (∀ a ∈ (at_ State.reset 0 0x3000).fetchReads,
      ({ at_ State.reset 0 0x3000 with mem := [(0, 0x30), (2, 0xFF)] } : State).memRead a = (at_ State.reset 0 0x3000).memRead a) ∧
      ∃ t, step (at_ State.reset 0 0x3000) = .next t := ⟨by decide, _, rfl⟩

/-- W8's memory: CALL 0x100 at 0x000, RET at 0x100, with `sp` at its highest free value. -/
def callRet : State :=
  { State.reset with mem := [(0, 0x21), (0x101, 0xEE)], runState := .running, sp := 15 }

theorem witness_CallThenReturnResumesAfterCall :
    callRet.runState = .running ∧ callRet.sp.toNat < 16 ∧ callRet.fetch = some 0x2100 ∧
      decodeWord 0x2100 = some (.call 0x100) ∧ callRet.wordAt ((0x100 : Addr).setWidth 16) = some 0x00EE := by decide
theorem witness_FaultsArePrecise : (running 0xFFF 0).runState = .running ∧
    ∃ t, step (running 0xFFF 0) = .next t ∧ t.runState = .faulted := ⟨rfl, _, rfl, rfl⟩
theorem witness_FaultsArePrecise_overflow : (at_ (stacked 16 0 2) 0 0x2100).runState = .running ∧
    ∃ t, step (at_ (stacked 16 0 2) 0 0x2100) = .next t ∧ t.runState = .faulted := ⟨rfl, _, rfl, rfl⟩
theorem witness_FaultsArePrecise_underflow : (at_ State.reset 0 0x00EE).runState = .running ∧
    ∃ t, step (at_ State.reset 0 0x00EE) = .next t ∧ t.runState = .faulted := ⟨rfl, _, rfl, rfl⟩
theorem witness_FaultsArePrecise_unimplemented : (at_ State.reset 0 0x1000).runState = .running ∧
    ∃ t, step (at_ State.reset 0 0x1000) = .next t ∧ t.runState = .faulted := ⟨rfl, _, rfl, rfl⟩
theorem witness_FaultsExactlyUnderTheFourConditions :
    (running 0xFFF 16).runState = .running ∧ (running 0xFFF 16).sp.toNat ≤ 16 := by decide
theorem witness_OnlyTheZeroWordHalts :
    ((running 0xFFE 0).runState = .running ∧ (∃ t, step (running 0xFFE 0) = .next t) ∧ (running 0xFFE 0).fetch = some 0x0000 ∧
      (running 0xFFE 0).pc.toNat ≤ 0xFFE ∧
      ∀ cell ∈ (running 0xFFE 0).mem, cell.1 ≠ (running 0xFFE 0).pc.toNat ∧ cell.1 ≠ (running 0xFFE 0).pc.toNat + 1) ∧
    (at_ State.reset 0 0x0FFF).fetch = some 0x0FFF ∧ (0x0FFF : Word).toNat < 0x1000 :=
  ⟨⟨rfl, ⟨_, rfl⟩, by decide, by decide, by decide⟩, by decide, by decide⟩
theorem witness_StoppedLastsUntilReset :
    State.ended { State.reset with runState := .halted } ∧ State.ended { State.reset with runState := .faulted } ∧
      HostAction.reset ∉ [HostAction.start] ∧
      HostAction.applyAll [.start] { State.reset with runState := .halted } = some { State.reset with runState := .halted } :=
  ⟨.inl rfl, .inr rfl, by decide, rfl⟩
theorem witness_EveryRunEnds :
    (running 0 0).runState = .running ∧ (running 0 0).sp.toNat ≤ 16 ∧ (running 0 16).sp.toNat ≤ 16 := by decide
theorem witness_StepAnswersWithSpInRange : (running 0 16).sp.toNat ≤ 16 := by decide

/-- 70_reset_and_hazards.md R190: a RUNNING block that the host's starts keep from stepping for ever is an execution, and not a
weakly fair one. -/
theorem test_endless_start_unfair :
    IsExecution (fun _ => running 0 0) (fun _ => .host .start) ∧ ¬ WeaklyFair (fun _ => running 0 0) (fun _ => .host .start) :=
  ⟨fun _ => rfl, fun hf => by obtain ⟨m, -, -, hm⟩ := hf 0 (fun _ _ => rfl); cases hm⟩

/-- A run of one HALT (the empty memory at 0x000), a start without effect before it, and the HALTED block for ever after. -/
def haltRun (n : Nat) : State :=
  match n with
  | 0 => running 0 0
  | 1 => running 0 0
  | _ + 2 => { State.reset with pc := 0x0002, runState := .halted }

/-- The moves of that run. -/
def haltMoves (n : Nat) : Move :=
  match n with
  | 0 => .host .start
  | _ + 1 => .block

theorem haltRun_execution : IsExecution haltRun haltMoves
  | 0 => rfl
  | 1 => rfl
  | _ + 2 => rfl

theorem haltRun_fair : WeaklyFair haltRun haltMoves := fun n h => by
  have := h (n + 2) (by omega)
  cases this

theorem witness_FairRunningBlockSteps :
    IsExecution haltRun haltMoves ∧ WeaklyFair haltRun haltMoves ∧ (haltRun 0).runState = .running :=
  ⟨haltRun_execution, haltRun_fair, rfl⟩
theorem witness_FairRunsEnd :
    IsExecution haltRun haltMoves ∧ WeaklyFair haltRun haltMoves ∧ (haltRun 0).runState = .running ∧
      (haltRun 0).sp.toNat ≤ 16 ∧ ∀ m, 0 ≤ m → haltMoves m ≠ .host .reset :=
  ⟨haltRun_execution, haltRun_fair, rfl, by decide, fun m _ => by cases m <;> simp [haltMoves]⟩
/-- The reset clause: a weakly fair execution in which a reset abandons the run at its first move. -/
theorem witness_FairRunningBlockSteps_reset :
    IsExecution (fun n => if n = 0 then running 0 0 else State.reset) (fun n => if n = 0 then .host .reset else .block) ∧
      WeaklyFair (fun n => if n = 0 then running 0 0 else State.reset) (fun n => if n = 0 then .host .reset else .block) :=
  ⟨fun n => by cases n <;> rfl, fun n h => by have := h (n + 1) (by omega); simp [State.reset] at this⟩

/-- A RUNNING state with a full stack that meets the invariant. -/
theorem running_inv : (running 0xFFE 16).Inv where
  memory := by decide
  depth := by decide
  slots := by decide
  entry := by decide
  halt := by decide
  record := ⟨rfl, rfl, rfl⟩

theorem witness_StepKeepsInv : (running 0xFFE 16).Inv ∧ ∃ t, step (running 0xFFE 16) = .next t := ⟨running_inv, _, rfl⟩
theorem witness_HostKeepsInv : (running 0xFFE 16).Inv ∧ ∃ t, HostAction.start.apply (running 0xFFE 16) = some t :=
  ⟨running_inv, _, rfl⟩
theorem witness_ReachableStatesMeetInv : Reachable State.reset.start := .host .start .reset rfl
theorem witness_ResetValues : ([0x60, 0x01] : List Byte).length ≤ 4096 := by decide
theorem witness_StartOnlyFromIdle : State.reset.runState = .idle ∧ (running 0 0).runState ≠ .idle := by decide
theorem witness_HostAccessIsGated :
    (HostAction.writePc 4 ≠ .reset ∧ HostAction.writePc 4 ≠ .start ∧ (running 0 0).runState ≠ .idle) ∧
      (∃ t, (HostAction.writePc 4).apply State.reset = some t) ∧ State.reset.runState = .idle ∧
      Memory.wf State.reset.mem = true ∧ (0xFFF : Addr) ≠ 0xFFE ∧ ∃ view, State.reset.hostView = some view :=
  ⟨by decide, ⟨_, rfl⟩, rfl, rfl, by decide, _, rfl⟩
theorem witness_LoadedImageReads : State.reset.runState = .idle ∧ (List.replicate 4096 (0x01 : Byte)).length ≤ 4096 :=
  ⟨rfl, List.length_replicate.le⟩
theorem witness_LaunchStateAtFirstFetch : ([0x60, 0x01] : List Byte).length ≤ 4096 := by decide

end Sys2Proof.Tests
end

section
/-! SUPPORT. The control port and the state port (00_scope.md R16, R17): what `start`, the write gate and the host's view answer in
each run state, and everything a host transaction can do. -/

namespace Sys2Proof.Machine

/-! ### Each port operation in each run state -/

theorem State.start_of_idle {s : State} (h : s.runState = .idle) : s.start = { s with runState := .running } := by
  simp only [State.start, h]

theorem State.start_of_not_idle {s : State} (h : s.runState ≠ .idle) : s.start = s := by
  cases hr : s.runState with
  | idle => exact absurd hr h
  | running | halted | faulted => simp only [State.start, hr]

theorem State.whileIdle_of_idle {s : State} (h : s.runState = .idle) (t : State) : s.whileIdle t = some t :=
  State.whileIdle_some_iff.mpr ⟨h, rfl⟩

theorem State.hostView_of_running {s : State} (h : s.runState = .running) : s.hostView = none := by
  simp only [State.hostView, h]

theorem State.hostView_of_not_running {s : State} (h : s.runState ≠ .running) :
    s.hostView = some ⟨s.v, s.pc, s.sp, s.stack, s.mem⟩ := by
  cases hr : s.runState with
  | running => exact absurd hr h
  | idle | halted | faulted => simp only [State.hostView, hr]

theorem State.hostView_none_iff {s : State} : s.hostView = none ↔ s.runState = .running := by
  refine ⟨fun hn => ?_, State.hostView_of_running⟩
  by_contra h
  rw [State.hostView_of_not_running h] at hn
  cases hn

theorem State.eq_of_hostView_some {s : State} {view : HostView} (h : s.hostView = some view) :
    view = ⟨s.v, s.pc, s.sp, s.stack, s.mem⟩ := by
  have hr : s.runState ≠ .running := fun hr => by
    rw [State.hostView_of_running hr] at h
    cases h
  rw [State.hostView_of_not_running hr] at h
  exact (Option.some.inj h).symm

/-! ### What a transaction can do -/

/-- Everything a host transaction other than `reset` and `start` can do: it is made in IDLE, it writes V, pc and memory at most,
and it keeps the memory canonical (00_scope.md R17). -/
theorem HostAction.write_cases {act : HostAction} {s t : State} (hr : act ≠ .reset) (hs : act ≠ .start)
    (h : act.apply s = some t) :
    s.runState = .idle ∧ ∃ v pc mem, t = { s with v := v, pc := pc, mem := mem } ∧
      (Memory.wf s.mem = true → Memory.wf mem = true) := by
  cases act with
  | reset => exact absurd rfl hr
  | start => exact absurd rfl hs
  | writeV x b =>
    obtain ⟨hi, rfl⟩ := State.whileIdle_some_iff.mp h
    exact ⟨hi, _, _, _, rfl, id⟩
  | writePc entry =>
    obtain ⟨hi, rfl⟩ := State.whileIdle_some_iff.mp h
    exact ⟨hi, _, _, _, rfl, id⟩
  | writeMem a b =>
    obtain ⟨hi, rfl⟩ := State.whileIdle_some_iff.mp h
    exact ⟨hi, _, _, _, rfl, State.memWrite_wf s a b⟩
  | loadImage image =>
    simp only [HostAction.apply] at h
    split at h
    next hlen =>
      obtain ⟨hi, rfl⟩ := State.whileIdle_some_iff.mp h
      exact ⟨hi, _, _, _, rfl, fun _ => Memory.ofImageFrom_wfFrom (by simpa using hlen)⟩
    next => cases h

/-- Outside IDLE no host write is admitted (70_reset_and_hazards.md R191). -/
theorem HostAction.write_refused {act : HostAction} {s : State} (hr : act ≠ .reset) (hs : act ≠ .start)
    (hi : s.runState ≠ .idle) : act.apply s = none :=
  Option.eq_none_iff_forall_ne_some.mpr fun _ h => hi (HostAction.write_cases hr hs h).1

/-! ### Frames of a write -/

theorem State.sameStack_update (s : State) (v : Vector Byte 16) (pc : Word) (mem : Memory) :
    SameStack s { s with v := v, pc := pc, mem := mem } :=
  ⟨rfl, fun _ => rfl⟩

theorem State.sameStatus_update (s : State) (v : Vector Byte 16) (pc : Word) (mem : Memory) :
    SameStatus s { s with v := v, pc := pc, mem := mem } :=
  ⟨rfl, rfl, rfl, rfl⟩

theorem State.setV_sameRegsBut (s : State) (x : Reg) (b : Byte) : SameRegsBut x s (s.setV x b) :=
  fun _ hr => State.getV_setV_other s b hr

theorem State.setV_sameBesidesRegsAndPc (s : State) (x : Reg) (b : Byte) : SameBesidesRegsAndPc s (s.setV x b) :=
  ⟨State.sameStack_update s _ _ _, State.memRead_setV s x b, State.sameStatus_update s _ _ _⟩

theorem State.setPc_sameBesidesRegsAndPc (s : State) (w : Word) : SameBesidesRegsAndPc s (s.setPc w) :=
  ⟨State.sameStack_update s _ _ _, State.memRead_setPc s w, State.sameStatus_update s _ _ _⟩

end Sys2Proof.Machine
end

section
/-! SUPPORT. The invariant under each kind of host transaction: reset, `start`, and the writes of the state port. -/

namespace Sys2Proof.Machine

/-- Outside FAULTED an exact record is a clear one (10_state.md R35). -/
theorem State.recordExact_iff_of_not_faulted {s : State} (h : s.runState ≠ .faulted) :
    s.recordExact ↔ s.faultKind = 0 ∧ s.faultPc = 0 ∧ s.faultOp = 0 := by
  cases hr : s.runState with
  | faulted => exact absurd hr h
  | idle | running | halted => simp only [State.recordExact, hr]

theorem State.getSlot_hostReset (s : State) (j : BitVec 4) : s.hostReset.getSlot j = 0 := by
  simp [State.getSlot, State.reset]

/-- Reset establishes the invariant, asking of the state before it only a canonical memory (70_reset_and_hazards.md R180). -/
theorem State.hostReset_inv {s : State} (h : Memory.wf s.mem = true) : s.hostReset.Inv where
  memory := h
  depth := by simp [State.reset]
  slots j := by simp [State.getSlot_hostReset]
  entry _ := ⟨rfl, State.getSlot_hostReset s⟩
  halt hh := by cases hh
  record := ⟨rfl, rfl, rfl⟩

/-- `start` leaves IDLE with the clear record it found, and elsewhere changes nothing (70_reset_and_hazards.md R182). -/
theorem State.Inv.start {s : State} (h : s.Inv) : s.start.Inv := by
  by_cases hi : s.runState = .idle
  · have hclear := (State.recordExact_iff_of_not_faulted (by simp [hi])).mp h.record
    rw [State.start_of_idle hi]
    exact {
      memory := h.memory
      depth := h.depth
      slots := h.slots
      entry := fun hr => by cases hr
      halt := fun hr => by cases hr
      record := hclear }
  · rwa [State.start_of_not_idle hi]

/-- In IDLE nothing the invariant says depends on V or pc, and of the memory it asks the canonical form alone. -/
theorem State.Inv.update_of_idle {s : State} (h : s.Inv) (hi : s.runState = .idle) (v : Vector Byte 16) (pc : Word)
    {mem : Memory} (hm : Memory.wf mem = true) : State.Inv { s with v := v, pc := pc, mem := mem } where
  memory := hm
  depth := h.depth
  slots := h.slots
  entry := h.entry
  halt hh := by cases hi.symm.trans hh
  record := by
    have hf : s.runState ≠ .faulted := by simp [hi]
    have hclear := (State.recordExact_iff_of_not_faulted hf).mp h.record
    exact (State.recordExact_iff_of_not_faulted (by exact hf)).mpr hclear

/-- Every admitted transaction keeps the invariant. -/
theorem HostAction.apply_keeps_inv {act : HostAction} {s t : State} (hinv : s.Inv) (h : act.apply s = some t) : t.Inv := by
  by_cases hr : act = .reset
  · subst hr; cases h
    exact State.hostReset_inv hinv.memory
  by_cases hs : act = .start
  · subst hs; cases h
    exact hinv.start
  obtain ⟨hi, v, pc, mem, rfl, hm⟩ := HostAction.write_cases hr hs h
  exact hinv.update_of_idle hi v pc (hm hinv.memory)

end Sys2Proof.Machine
end

section
/-! The obligations on the host's control and state ports. -/

namespace Sys2Proof.Machine

/-- Settles O38: reset establishes the invariant, `start` and the writes in IDLE keep it. -/
theorem hostKeepsInv : Obligations.HostKeepsInv :=
  fun _ _ _ hinv h => HostAction.apply_keeps_inv hinv h

/-- Settles O42, from what a write can do at all and the frame of each write. -/
theorem hostAccessIsGated : Obligations.HostAccessIsGated := by
  refine ⟨fun _ _ => HostAction.write_refused, ?anyWrite, ?writeV, ?writePc, ?writeMem,
    fun _ => ⟨State.hostView_none_iff, fun _ => State.eq_of_hostView_some⟩⟩
  case anyWrite =>
    intro act s t hr hs h
    obtain ⟨-, v, pc, mem, rfl, -⟩ := HostAction.write_cases hr hs h
    exact ⟨s.sameStack_update v pc mem, s.sameStatus_update v pc mem⟩
  case writeV =>
    intro s x b hi
    exact ⟨s.setV x b, State.whileIdle_of_idle hi _, s.getV_setV_same x b, s.setV_sameRegsBut x b, rfl,
      s.setV_sameBesidesRegsAndPc x b⟩
  case writePc =>
    intro s entry hi
    exact ⟨s.setPc entry, State.whileIdle_of_idle hi _, rfl, s.getV_setPc entry, s.setPc_sameBesidesRegsAndPc entry⟩
  case writeMem =>
    intro s a b hi hm
    refine ⟨s.memWrite a b, State.whileIdle_of_idle hi _, ?_, fun a' ha => ?_, s.getV_memWrite a b, rfl⟩
    · rw [State.memRead_memWrite s a b a hm, if_pos rfl]
    · rw [State.memRead_memWrite s a b a' hm, if_neg ha]

/-- Settles O41, by the run state. -/
theorem startOnlyFromIdle : Obligations.StartOnlyFromIdle :=
  fun _ => ⟨fun h => congrArg some (State.start_of_idle h), fun h => congrArg some (State.start_of_not_idle h)⟩

end Sys2Proof.Machine
end

section
/-! SUPPORT. What an instruction writes to the registers and what it reads of them (10_state.md R21 to R25). -/

namespace Sys2Proof.Machine

/-! ### Two writes of the register file -/

theorem State.setV_comm (s : State) {x r : Reg} (a b : Byte) (h : x ≠ r) : (s.setV r b).setV x a = (s.setV x a).setV r b := by
  have hn : r.toNat ≠ x.toNat := fun e => h (BitVec.eq_of_toNat_eq e).symm
  simp only [State.setV, Vector.set_comm _ _ hn]

theorem State.setV_setV_same (s : State) (x : Reg) (a b : Byte) : (s.setV x a).setV x b = s.setV x b := by
  simp only [State.setV, Vector.set_set]

theorem State.advance_setV (s : State) (x : Reg) (b : Byte) : (s.setV x b).advance = s.advance.setV x b := rfl

/-! ### Named registers -/

theorem Instr.ne_of_named {i : Instr} {x r : Reg} (hx : (.reg, x.toNat) ∈ i.operands)
    (hr : (.reg, r.toNat) ∉ i.operands) : x ≠ r := by
  rintro rfl
  exact hr hx

/-- A write to a register that the instruction does not name leaves every operand it reads (10_state.md R23). -/
theorem State.getV_setV_unnamed {i : Instr} {x r : Reg} (s : State) (b : Byte) (hr : (.reg, r.toNat) ∉ i.operands)
    (hx : (.reg, x.toNat) ∈ i.operands) : (s.setV r b).getV x = s.getV x :=
  State.getV_setV_other s b (Instr.ne_of_named hx hr)

/-! ### The three kinds of instruction: none, one or two registers written -/

theorem exec_sameRegs_of_control {i : Instr} {s t : State} (hi : i.op ∈ [.halt, .ret, .call, .se, .sne])
    (h : exec i s = .next t) : SameRegs s t := by
  intro r
  obtain ⟨-, rfl⟩ | ⟨-, -, rfl⟩ | ⟨-, -, _, -, rfl⟩ | ⟨_, -, -, rfl⟩ | ⟨_, -, -, rfl⟩ | ⟨-, rfl | rfl⟩ | ⟨hn, -⟩ :=
    exec_cases h
  exacts [rfl, rfl, rfl, rfl, rfl, rfl, rfl, absurd hi hn]

/-- Every other instruction but ADD writes its first operand alone, with a value that depends on no register it does not name
(10_state.md R21, R23). -/
theorem exec_writes_first_operand {i : Instr} (hi : i.op ∉ [.halt, .ret, .call, .se, .sne]) (ha : i.op ≠ .add) :
    ∃ (x : Reg) (value : State → Byte), i.operands.head? = some (.reg, x.toNat) ∧
      (∀ s, exec i s = .next (s.advance.setV x (value s))) ∧
      ∀ s r b, (.reg, r.toNat) ∉ i.operands → value (s.setV r b) = value s := by
  cases i with
  | halt | ret | call | se | sne => exact absurd (by simp [Instr.op]) hi
  | add => exact absurd rfl ha
  | ldImm x kk => exact ⟨x, _, rfl, exec_ldImm x kk, fun _ _ _ _ => rfl⟩
  | addn x d =>
    refine ⟨x, _, rfl, exec_addn x d, fun s r b hr => ?_⟩
    rw [s.getV_setV_unnamed b hr (.head _)]
  | ldReg x y =>
    refine ⟨x, _, rfl, exec_ldReg x y, fun s r b hr => ?_⟩
    rw [s.getV_setV_unnamed b hr (.tail _ (.head _))]
  | or x y =>
    refine ⟨x, _, rfl, exec_or x y, fun s r b hr => ?_⟩
    rw [s.getV_setV_unnamed b hr (.head _), s.getV_setV_unnamed b hr (.tail _ (.head _))]
  | and x y =>
    refine ⟨x, _, rfl, exec_and x y, fun s r b hr => ?_⟩
    rw [s.getV_setV_unnamed b hr (.head _), s.getV_setV_unnamed b hr (.tail _ (.head _))]
  | xor x y =>
    refine ⟨x, _, rfl, exec_xor x y, fun s r b hr => ?_⟩
    rw [s.getV_setV_unnamed b hr (.head _), s.getV_setV_unnamed b hr (.tail _ (.head _))]

/-! ### A register that an instruction does not name -/

theorem exec_ret_cases {s t : State} (h : exec .ret s = .next t) :
    (s.sp = 0 ∧ t = s.raise .stackUnderflow 0x00EE) ∨
    (s.sp ≠ 0 ∧ ∃ target, s.stack[(s.sp - 1).toNat]? = some target ∧ t = { s with pc := target, sp := s.sp - 1 }) := by
  simpa [Instr.op] using exec_cases h

/-- Writing an unnamed register before control flow or a compare comes to the same as writing it after. -/
theorem exec_setV_unnamed_of_control {i : Instr} {s t : State} {r : Reg} (b : Byte)
    (hi : i.op ∈ [.halt, .ret, .call, .se, .sne]) (hr : (.reg, r.toNat) ∉ i.operands) (h : exec i s = .next t) :
    exec i (s.setV r b) = .next (t.setV r b) := by
  cases i with
  | halt => cases h; rfl
  | ret =>
    obtain ⟨h0, rfl⟩ | ⟨h0, target, hv, rfl⟩ := exec_ret_cases h
    · exact exec_ret_empty (s := s.setV r b) h0
    · exact exec_ret_pop (s := s.setV r b) h0 hv
  | call addr =>
    by_cases hf : 16 ≤ s.sp.toNat
    · rw [exec_call_full hf] at h; cases h
      exact exec_call_full (s := s.setV r b) hf
    · rw [exec_call_push (by omega)] at h; cases h
      exact exec_call_push (s := s.setV r b) (Nat.lt_of_not_le hf)
  | se x kk =>
    rw [exec_se] at h ⊢; cases h
    rw [s.getV_setV_unnamed b hr (.head _)]
    rfl
  | sne x kk =>
    rw [exec_sne] at h ⊢; cases h
    rw [s.getV_setV_unnamed b hr (.head _)]
    rfl
  | ldImm | addn | ldReg | or | and | xor | add => simp [Instr.op] at hi

/-- The same of every instruction but ADD, which writes a register that it need not name. -/
theorem exec_setV_unnamed {i : Instr} {s t : State} {r : Reg} (b : Byte) (ha : i.op ≠ .add)
    (hr : (.reg, r.toNat) ∉ i.operands) (h : exec i s = .next t) : exec i (s.setV r b) = .next (t.setV r b) := by
  by_cases hi : i.op ∈ [.halt, .ret, .call, .se, .sne]
  · exact exec_setV_unnamed_of_control b hi hr h
  · obtain ⟨x, value, hx, hexec, hvalue⟩ := exec_writes_first_operand hi ha
    have hne : x ≠ r := Instr.ne_of_named (List.mem_of_head? hx) hr
    rw [hexec] at h ⊢; cases h
    rw [hvalue s r b hr, State.advance_setV, State.setV_comm s.advance _ b hne]

/-- ADD overwrites whatever VF held (10_state.md R24). -/
theorem exec_add_setV_flag {x y : Reg} (s : State) (b : Byte) (hr : (OperandKind.reg, 15) ∉ (Instr.add x y).operands) :
    exec (.add x y) (s.setV 0xF b) = exec (.add x y) s := by
  have hx : (s.setV 0xF b).getV x = s.getV x := s.getV_setV_unnamed b hr (.head _)
  have hy : (s.setV 0xF b).getV y = s.getV y := s.getV_setV_unnamed b hr (.tail _ (.head _))
  have hne : x ≠ 0xF := Instr.ne_of_named (.head _) hr
  rw [exec_add, exec_add, hx, hy, State.advance_setV, State.setV_comm s.advance _ b hne, State.setV_setV_same]

theorem SameBesidesRegsAndPc.refl (s : State) : SameBesidesRegsAndPc s s :=
  ⟨s.sameStack_update _ _ _, fun _ => rfl, s.sameStatus_update _ _ _⟩

theorem Instr.eq_add_of_op {i : Instr} (h : i.op = .add) : ∃ x y, i = .add x y := by
  cases i with
  | add x y => exact ⟨x, y, rfl⟩
  | _ => cases h

end Sys2Proof.Machine
end

section
/-! SUPPORT. What an instruction and a step do to the return stack and to pc (10_state.md R29, R32). -/

namespace Sys2Proof.Machine

/-- `t` has the stack of `s` after a pop: one fewer saved address, and no slot written (10_state.md R32, R33). -/
def Popped (s t : State) : Prop :=
  t.sp.toNat + 1 = s.sp.toNat ∧ ∀ j, t.getSlot j = s.getSlot j

/-- `t` has the stack of `s` after a call: one saved address more, the advanced pc, in the free slot that `sp` named
(10_state.md R32). -/
def Pushed (s t : State) : Prop :=
  s.sp.toNat < 16 ∧ t.sp.toNat = s.sp.toNat + 1 ∧ ∀ j, t.getSlot j = if j.toNat = s.sp.toNat then s.pc + 2 else s.getSlot j

theorem State.sp_pos {s : State} (h : s.sp ≠ 0) : 1 ≤ s.sp.toNat :=
  Nat.pos_of_ne_zero fun e => h (BitVec.eq_of_toNat_eq e)

/-- Everything an instruction can do to the stack. -/
theorem exec_stack_cases {i : Instr} {s t : State} (h : exec i s = .next t) :
    SameStack s t ∨ (i = .ret ∧ Popped s t) ∨ (∃ addr, i = .call addr ∧ Pushed s t) := by
  obtain ⟨-, rfl⟩ | ⟨-, -, rfl⟩ | ⟨rfl, h0, target, -, rfl⟩ | ⟨_, -, -, rfl⟩ | ⟨addr, rfl, hsp, rfl⟩ | ⟨-, rfl | rfl⟩ |
    ⟨-, v, rfl⟩ := exec_cases h
  -- a return with a saved address, a call with a free slot; nothing else touches the stack
  case inr.inr.inl => exact .inr (.inl ⟨rfl, State.sp_sub_one (State.sp_pos h0), fun _ => rfl⟩)
  case inr.inr.inr.inr.inl => exact .inr (.inr ⟨addr, rfl, hsp, State.sp_add_one hsp, s.getSlot_push (s.pc + 2)⟩)
  all_goals exact .inl ⟨rfl, fun _ => rfl⟩

/-- Everything a step can do to the stack: nothing, or what the fetched RET or CALL does (40_control_flow.md R103). -/
theorem step_stack_cases {s t : State} (h : step s = .next t) :
    SameStack s t ∨ (s.runState = .running ∧ ∃ op, s.fetch = some op ∧
      ((decodeWord op = some .ret ∧ Popped s t) ∨ ∃ addr, decodeWord op = some (.call addr) ∧ Pushed s t)) := by
  obtain ⟨-, hs⟩ | ⟨-, -, hs⟩ | ⟨-, op, -, -, hs⟩ | ⟨hr, op, i, hf, hd, hs⟩ := step_cases s
  case inr.inr.inr =>
    obtain hst | ⟨rfl, hp⟩ | ⟨addr, rfl, hp⟩ := exec_stack_cases (hs.symm.trans h)
    · exact .inl hst
    · exact .inr ⟨hr, op, hf, .inl ⟨hd, hp⟩⟩
    · exact .inr ⟨hr, op, hf, .inr ⟨addr, hd, hp⟩⟩
  all_goals
    cases hs.symm.trans h
    exact .inl ⟨rfl, fun _ => rfl⟩

/-! ### pc and the saved addresses stay inside the address space (10_state.md R29) -/

/-- Every saved address is at most that of the end of the memory, 0x1000. -/
def State.SavedInBounds (s : State) : Prop :=
  ∀ j, j.toNat < s.sp.toNat → (s.getSlot j).toNat ≤ 0x1000

theorem SameStack.savedInBounds {s t : State} (h : SameStack s t) (hs : s.SavedInBounds) : t.SavedInBounds := by
  obtain ⟨hsp, hslot⟩ := h
  intro j hj
  rw [hslot]
  exact hs j (hsp ▸ hj)

theorem Popped.savedInBounds {s t : State} (h : Popped s t) (hs : s.SavedInBounds) : t.SavedInBounds := by
  obtain ⟨hsp, hslot⟩ := h
  intro j hj
  rw [hslot]
  exact hs j (by omega)

theorem State.advanced_pc_toNat {s : State} (hpc : s.pc.toNat ≤ 0xFFE) : (s.pc + 2).toNat = s.pc.toNat + 2 := by
  bv_omega

/-- The address that a call saves is in bounds, since its instruction was fetched. -/
theorem Pushed.savedInBounds {s t : State} (h : Pushed s t) (hpc : s.pc.toNat ≤ 0xFFE) (hs : s.SavedInBounds) :
    t.SavedInBounds := by
  obtain ⟨-, hsp, hslot⟩ := h
  intro j hj
  rw [hslot]
  split
  · rw [State.advanced_pc_toNat hpc]; omega
  · exact hs j (by omega)

theorem step_savedInBounds {s t : State} (hpc : s.pc.toNat ≤ 0xFFE) (hs : s.SavedInBounds) (h : step s = .next t) :
    t.SavedInBounds := by
  obtain hst | ⟨-, _, -, ⟨-, hp⟩ | ⟨_, -, hp⟩⟩ := step_stack_cases h
  · exact hst.savedInBounds hs
  · exact hp.savedInBounds hs
  · exact hp.savedInBounds hpc hs

/-- The address that a return pops was saved. -/
theorem State.popped_le {s : State} {target : Word} (hs : s.SavedInBounds) (h0 : s.sp ≠ 0)
    (hv : s.stack[(s.sp - 1).toNat]? = some target) : target.toNat ≤ 0x1000 := by
  have hsp := State.sp_sub_one (State.sp_pos h0)
  obtain ⟨hlt, -⟩ := Vector.getElem?_eq_some_iff.mp hv
  have hj : (BitVec.ofNat 4 (s.sp - 1).toNat).toNat = (s.sp - 1).toNat := Nat.mod_eq_of_lt hlt
  rw [State.slot_below_sp s (BitVec.ofNat 4 (s.sp - 1).toNat) (by omega)] at hv
  cases hv
  exact hs _ (by omega)

/-- The highest pc is that of a skip taken at the end of the memory. -/
theorem exec_pc_le {i : Instr} {s t : State} (hpc : s.pc.toNat ≤ 0xFFE) (hs : s.SavedInBounds) (h : exec i s = .next t) :
    t.pc.toNat ≤ 0x1002 := by
  have hadv := State.advanced_pc_toNat hpc
  obtain ⟨-, rfl⟩ | ⟨-, -, rfl⟩ | ⟨-, h0, target, hv, rfl⟩ | ⟨_, -, -, rfl⟩ | ⟨addr, -, -, rfl⟩ | ⟨-, rfl | rfl⟩ |
    ⟨-, v, rfl⟩ := exec_cases h
  -- a return, a call, a skip taken; every other instruction advances or leaves pc
  case inr.inr.inl => exact (State.popped_le hs h0 hv).trans (by decide)
  case inr.inr.inr.inr.inl =>
    have haddr := addr.isLt
    simp only [State.setPc_pc, BitVec.toNat_setWidth]
    omega
  case inr.inr.inr.inr.inr.inl.inr =>
    have hskip : (s.pc + 2 + 2).toNat = s.pc.toNat + 4 := by bv_omega
    simp only [State.setPc_pc, hskip]
    omega
  all_goals
    simp only [State.halt_pc, State.advance_pc, State.raise_pc, State.setPc_pc, hadv]
    omega

theorem step_pc_le {s t : State} (hpc : s.pc.toNat ≤ 0xFFE) (hs : s.SavedInBounds) (h : step s = .next t) :
    t.pc.toNat ≤ 0x1002 := by
  obtain ⟨-, hst⟩ | ⟨-, -, hst⟩ | ⟨-, op, -, -, hst⟩ | ⟨-, op, i, -, -, hst⟩ := step_cases s
  case inr.inr.inr => exact exec_pc_le hpc hs (hst.symm.trans h)
  all_goals
    cases hst.symm.trans h
    exact hpc.trans (by decide)

end Sys2Proof.Machine
end

section
/-! SUPPORT. A run that has ended stays as it is until reset (10_state.md R34; 60_exceptions.md R158). -/

namespace Sys2Proof.Machine

theorem State.ended.ne_running {s : State} (h : s.ended) : s.runState ≠ .running := by
  obtain h | h := h <;> simp [h]

theorem run_of_ended {s : State} (h : s.ended) (n : Nat) : Host.Core.run core n s = .next s := by
  induction n with
  | zero => rfl
  | succ n ih => rw [run_succ n (step_not_running h.ne_running), ih]

theorem HostAction.applyAll_of_ended {s t : State} {acts : List HostAction} (h : s.ended) (hr : .reset ∉ acts)
    (ha : HostAction.applyAll acts s = some t) : t = s := by
  induction acts with
  | nil => exact (Option.some.inj ha).symm
  | cons act rest ih =>
    obtain ⟨hact, hrest⟩ := not_or.mp (mt List.mem_cons.mpr hr)
    simp only [HostAction.applyAll] at ha
    split at ha
    next u hu =>
      obtain rfl | hm := Move.stopped_cases (move := .host act) h hu
      · exact ih hrest ha
      · cases hm
        exact absurd rfl hact
    next => cases ha

end Sys2Proof.Machine
end

section
/-! The obligations on the architectural state. -/

namespace Sys2Proof.Machine

/-- Settles O23, by the three kinds of instruction: none, one or two registers written. -/
theorem onlyTheDestinationIsWritten : Obligations.OnlyTheDestinationIsWritten := by
  intro i s t r h hne
  by_cases hi : i.op ∈ [.halt, .ret, .call, .se, .sne]
  · exact absurd (exec_sameRegs_of_control hi h r) hne
  by_cases ha : i.op = .add
  · obtain ⟨x, y, rfl⟩ := Instr.eq_add_of_op ha
    rw [exec_add] at h; cases h
    by_cases hf : r = 0xF
    · exact .inr ⟨rfl, hf⟩
    · have hx : r = x := by
        by_contra hx
        exact hne ((State.getV_setV_other _ _ hf).trans (State.getV_setV_other s.advance _ hx))
      exact .inl ⟨by rw [hx]; rfl, by simp [Instr.op], by simp [Instr.op]⟩
  · obtain ⟨x, value, hx, hexec, -⟩ := exec_writes_first_operand hi ha
    rw [hexec] at h; cases h
    have hr : r = x := by
      by_contra hr
      exact hne (State.getV_setV_other s.advance _ hr)
    simp only [List.mem_cons, List.not_mem_nil, or_false, not_or] at hi
    obtain ⟨-, -, -, hse, hsne⟩ := hi
    exact .inl ⟨hr ▸ hx, hse, hsne⟩

/-- Settles O24: ADD overwrites VF, and any other instruction leaves in an unnamed VF what was there. -/
theorem flagIsNoImplicitInput : Obligations.FlagIsNoImplicitInput := by
  intro i s t b hr h
  by_cases ha : i.op = .add
  · obtain ⟨x, y, rfl⟩ := Instr.eq_add_of_op ha
    exact ⟨t, (exec_add_setV_flag s b hr).trans h, rfl, fun _ _ => rfl, SameBesidesRegsAndPc.refl t⟩
  · exact ⟨t.setV 0xF b, exec_setV_unnamed b ha hr h, rfl, t.setV_sameRegsBut 0xF b, t.setV_sameBesidesRegsAndPc 0xF b⟩

/-- Settles O25, from what a step can do to the stack. -/
theorem stackPointerMovesByOne : Obligations.StackPointerMovesByOne := by
  intro s t hle h
  obtain ⟨hsp, hslot⟩ | ⟨hr, op, hf, ⟨hd, hsp, hslot⟩ | ⟨addr, hd, hfree, hsp, hslot⟩⟩ := step_stack_cases h
  case inl => exact ⟨hsp ▸ hle, fun hne => absurd hsp hne, fun j hne => absurd (hslot j) hne⟩
  case inr.inl =>
    exact ⟨by omega, fun _ => ⟨hr, op, hf, .inr ⟨hd, hsp⟩⟩, fun j hne => absurd (hslot j) hne⟩
  case inr.inr =>
    refine ⟨by omega, fun _ => ⟨hr, op, hf, .inl ⟨⟨addr, hd⟩, hsp⟩⟩, fun j hne => ⟨?_, hsp⟩⟩
    by_contra hj
    exact hne ((hslot j).trans (if_neg hj))

/-- Settles O26, as two bounds that a step keeps together. -/
theorem pcNeverWraps : Obligations.PcNeverWraps :=
  fun _ _ _ hpc hs h => ⟨step_pc_le hpc hs h, step_savedInBounds hpc hs h⟩

/-- Settles O33: neither a step nor a host transaction but reset changes an ended state. -/
theorem stoppedLastsUntilReset : Obligations.StoppedLastsUntilReset :=
  fun _ h => ⟨run_of_ended h, fun _ _ hr ha => HostAction.applyAll_of_ended h hr ha⟩

/-- Settles O37: the state after reset is a reset of itself. -/
theorem resetMeetsInv : Obligations.ResetMeetsInv :=
  State.hostReset_inv (s := State.reset) rfl

end Sys2Proof.Machine
end

section
/-! SUPPORT. The two byte reads of a fetch, the memory along a run, and the load of an image (20_memory.md R50 to R56). -/

namespace Sys2Proof.Machine

/-! ### The two transactions of a fetch (20_memory.md R52, R53) -/

theorem State.pc_le_lastFetch_iff (s : State) : s.pc ≤ Config.lastFetch ↔ s.pc.toNat ≤ 0xFFE :=
  BitVec.le_def

theorem State.fetchReads_in_bounds {s : State} (h : s.pc.toNat ≤ 0xFFE) :
    s.fetchReads = [s.pc.setWidth 12, (s.pc + 1).setWidth 12] :=
  if_pos (s.pc_le_lastFetch_iff.mpr h)

theorem State.fetchReads_out_of_bounds {s : State} (h : 0xFFE < s.pc.toNat) : s.fetchReads = [] :=
  if_neg (mt s.pc_le_lastFetch_iff.mp (Nat.not_le.mpr h))

theorem State.fetch_in_bounds {s : State} (h : s.pc.toNat ≤ 0xFFE) :
    s.fetch = some (joinBytes (s.memRead (s.pc.setWidth 12)) (s.memRead ((s.pc + 1).setWidth 12))) :=
  s.fetch_eq.trans (if_pos (s.pc_le_lastFetch_iff.mpr h))

/-- In bounds neither address loses a bit in the 12 bits of the fetch port. -/
theorem State.fetch_addresses {s : State} (h : s.pc.toNat ≤ 0xFFE) :
    (s.pc.setWidth 12).toNat = s.pc.toNat ∧ ((s.pc + 1).setWidth 12).toNat = s.pc.toNat + 1 := by
  constructor <;> bv_omega

/-! ### No step writes memory (20_memory.md R56) -/

theorem exec_mem {i : Instr} {s t : State} (h : exec i s = .next t) : t.mem = s.mem := by
  obtain ⟨-, rfl⟩ | ⟨-, -, rfl⟩ | ⟨-, -, _, -, rfl⟩ | ⟨_, -, -, rfl⟩ | ⟨_, -, -, rfl⟩ | ⟨-, rfl | rfl⟩ | ⟨-, _, rfl⟩ :=
    exec_cases h
  all_goals rfl

theorem step_mem {s t : State} (h : step s = .next t) : t.mem = s.mem := by
  obtain ⟨-, hst⟩ | ⟨-, -, hst⟩ | ⟨-, op, -, -, hst⟩ | ⟨-, op, i, -, -, hst⟩ := step_cases s
  case inr.inr.inr => exact exec_mem (hst.symm.trans h)
  all_goals
    cases hst.symm.trans h
    rfl

/-- What the host can do to a RUNNING block, a start without effect or a reset, leaves the memory alone
(20_memory.md R60; 92_eei_decisions.md D22). -/
theorem HostAction.apply_running_mem {act : HostAction} {s t : State} (hr : s.runState = .running)
    (h : act.apply s = some t) : t.mem = s.mem := by
  obtain ⟨hm, -⟩ | ⟨-, rfl⟩ | ⟨-, rfl⟩ := Move.running_cases (move := .host act) hr h
  · cases hm
  · rfl
  · rfl

/-! ### The load of an image (20_memory.md R50, 70_reset_and_hazards.md R182) -/

theorem HostAction.loadImage_of_idle {image : List Byte} {s : State} (hi : s.runState = .idle)
    (hlen : image.length ≤ 4096) :
    (HostAction.loadImage image).apply s = some { s with mem := Memory.ofImageFrom 0 image } :=
  (if_pos hlen).trans (State.whileIdle_of_idle hi _)

theorem Memory.ofImage_wf {image : List Byte} (hlen : image.length ≤ 4096) :
    Memory.wf (Memory.ofImageFrom 0 image) = true :=
  Memory.ofImageFrom_wfFrom ((Nat.zero_add _).trans_le hlen)

theorem State.memRead_ofImage (s : State) (image : List Byte) (a : Addr) :
    State.memRead { s with mem := Memory.ofImageFrom 0 image } a = image.getD a.toNat 0x00 :=
  (Memory.get_ofImageFrom image 0 a.toNat).trans (if_pos (Nat.zero_le _))

end Sys2Proof.Machine
end

section
/-! The obligations on the memory. -/

namespace Sys2Proof.Machine

/-- Settles O9, by the bounds test on pc. -/
theorem fetchReadsTwoBytesBigEndian : Obligations.FetchReadsTwoBytesBigEndian := by
  refine fun s => ⟨fun h => ?inBounds, fun h => ⟨State.fetchReads_out_of_bounds h, State.fetch_none_iff.mpr h⟩⟩
  case inBounds =>
    obtain ⟨ha, hb⟩ := State.fetch_addresses h
    exact ⟨_, _, _, ha, hb, State.fetchReads_in_bounds h, State.fetch_in_bounds h, joinBytes_toNat _ _⟩

/-- Settles O27: equal memories read the same, and neither a step nor a host transaction while RUNNING changes it. -/
theorem memoryIsConstantInARun : Obligations.MemoryIsConstantInARun :=
  ⟨fun _ _ h => ⟨step_mem h, State.memRead_congr (step_mem h)⟩,
    fun _ _ _ hr h =>
      ⟨HostAction.apply_running_mem hr h, State.memRead_congr (HostAction.apply_running_mem hr h)⟩⟩

/-- Settles O43, from what the memory of an image reads as and its canonical form; the load writes no other field. -/
theorem loadedImageReads : Obligations.LoadedImageReads :=
  fun image s hi hlen =>
    ⟨_, HostAction.loadImage_of_idle hi hlen, s.memRead_ofImage image, Memory.ofImage_wf hlen, fun _ => rfl, rfl,
      s.sameStack_update _ _ _, s.sameStatus_update _ _ _⟩

end Sys2Proof.Machine
end

section
/-! SUPPORT. Dispatch: which words select a row, that no word selects two, and what the words of family 0 and of ADDN decode to
(30_encoding.md R85 to R87, R92). -/

namespace Sys2Proof

/-! ### The rows are disjoint (30_encoding.md R86) -/

/-- Where both masks look, a word that two rows select has the match bits of both. -/
theorem Row.pats_agree {r r' : Row} {w : Word} (h : r.selects w = true) (h' : r'.selects w = true) :
    r.pat &&& r'.mask = r'.pat &&& r.mask := by
  rw [← beq_iff_eq.mp h, ← beq_iff_eq.mp h', BitVec.and_assoc, BitVec.and_assoc, BitVec.and_comm r.mask]

/-- Each row of the table has a match bit against every other, under both masks. -/
theorem dispatchTable_pats_differ :
    ∀ r ∈ dispatchTable, ∀ r' ∈ dispatchTable, r.pat &&& r'.mask = r'.pat &&& r.mask → r = r' := by
  decide

theorem dispatchTable_selects_unique (w : Word) :
    ∀ r ∈ dispatchTable, ∀ r' ∈ dispatchTable, r.selects w = true → r'.selects w = true → r = r' :=
  fun r hr r' hr' h h' => dispatchTable_pats_differ r hr r' hr' (Row.pats_agree h h')

/-- So the order of the rows does not matter. -/
theorem dispatchTable_find_perm (w : Word) {rows : List Row} (h : rows.Perm dispatchTable) :
    rows.find? (fun r => r.selects w) = dispatchTable.find? fun r => r.selects w :=
  (List.find?_eq_find?_of_perm h.symm fun r ⟨hr, hw⟩ r' ⟨hr', hw'⟩ =>
    dispatchTable_selects_unique w r hr r' hr' hw hw').symm

/-! ### The words that select no row (30_encoding.md R87) -/

theorem family_toNat (w : Word) : (w.extractLsb' 12 4).toNat = w.toNat / 4096 := by
  have := w.isLt
  rw [BitVec.extractLsb'_toNat, Nat.shiftRight_eq_div_pow]
  omega

theorem function_toNat (w : Word) : (w.extractLsb' 0 4).toNat = w.toNat % 16 := by
  rw [BitVec.extractLsb'_toNat, Nat.shiftRight_zero]

theorem Op.ofNibbles_none_iff : ∀ f d : Nibble, Op.ofNibbles f d = none ↔
    f.toNat ≤ 1 ∨ f.toNat = 5 ∨ (f.toNat = 8 ∧ 5 ≤ d.toNat) ∨ 9 ≤ f.toNat := by
  decide

theorem Op.ofWord_none_iff {w : Word} :
    Op.ofWord w = none ↔ w ≠ 0x0000#16 ∧ w ≠ 0x00EE#16 ∧ Op.ofNibbles (w.extractLsb' 12 4) (w.extractLsb' 0 4) = none := by
  unfold Op.ofWord
  split
  next h => simp [h]
  next h0 =>
    split
    next h => simp [h]
    next h1 => simp [h0, h1]

/-- The words that decode to no instruction, by the family and function nibbles as numbers. -/
theorem decodeWord_none_iff_toNat {w : Word} : decodeWord w = none ↔ w.toNat ≠ 0x0000 ∧ w.toNat ≠ 0x00EE ∧
    (w.toNat / 4096 ≤ 1 ∨ w.toNat / 4096 = 5 ∨ (w.toNat / 4096 = 8 ∧ 5 ≤ w.toNat % 16) ∨ 9 ≤ w.toNat / 4096) := by
  rw [decodeWord_none_iff, Op.ofWord_none_iff, Op.ofNibbles_none_iff, family_toNat, function_toNat, Ne, Ne,
    ← BitVec.toNat_inj, ← BitVec.toNat_inj]
  rfl

/-! ### Family 0 (30_encoding.md R89) -/

theorem decodeWord_family_zero {w : Word} (h : w.toNat < 0x1000) (h0 : w ≠ 0x0000) (h1 : w ≠ 0x00EE) :
    decodeWord w = none := by
  refine decodeWord_none_iff_toNat.mpr ⟨fun e => h0 (BitVec.eq_of_toNat_eq e), fun e => h1 (BitVec.eq_of_toNat_eq e), .inl ?_⟩
  omega

theorem Op.ofNibbles_ne_halt : ∀ f d : Nibble, Op.ofNibbles f d ≠ some .halt := by
  decide

theorem decodeWord_halt_iff {w : Word} : decodeWord w = some .halt ↔ w = 0x0000 := by
  refine ⟨fun h => ?_, by rintro rfl; rfl⟩
  obtain ⟨o, ho, hi⟩ := decodeWord_some_iff.mp h
  obtain rfl : o = .halt := (Op.op_instr o _).symm.trans (congrArg Instr.op hi)
  unfold Op.ofWord at ho
  split at ho
  next h0 => exact h0
  next =>
    split at ho
    next => cases ho
    next => exact absurd ho (Op.ofNibbles_ne_halt _ _)

/-! ### ADDN (30_encoding.md R92) -/

/-- The sixteen words of ADDN Vx, d: `y` stands in the ignored bits 7:4. -/
def addnWord (x y d : BitVec 4) : Word :=
  0x7000#16 ||| x.setWidth 16 <<< 8 ||| y.setWidth 16 <<< 4 ||| d.setWidth 16

theorem addnWord_nibbles (x y d : BitVec 4) :
    (addnWord x y d).extractLsb' 12 4 = 7#4 ∧ (addnWord x y d).extractLsb' 8 4 = x ∧
      (addnWord x y d).extractLsb' 4 4 = y ∧ (addnWord x y d).extractLsb' 0 4 = d := by
  refine ⟨?_, ?_, ?_, ?_⟩ <;> ext i hi <;> interval_cases i <;> simp [addnWord]

theorem decodeWord_addnWord (x y d : BitVec 4) : decodeWord (addnWord x y d) = some (.addn x d) := by
  obtain ⟨hfam, hx, -, hd⟩ := addnWord_nibbles x y d
  have hop : Op.ofWord (addnWord x y d) = some .addn := Laws.EncodedRow.of_nibbles hfam hd (by decide)
  rw [decodeWord_eq, hop]
  simp only [Option.map_some, Op.instr, Fields.ofWord, hx, hd]

theorem encode_addn (x : Reg) (d : Nibble) : encode (.addn x d) = addnWord x 0 d := by
  simp [encode, addnWord]

theorem assemble_addn_refuses {x n : Nat} (h : 15 < n) : assemble .addn [x, n] = none := by
  have hn : OperandKind.nibble.inRange n = false := decide_eq_false (Nat.not_lt.mpr h)
  simp only [assemble, hn, Bool.and_false, Bool.false_eq_true, if_false]

end Sys2Proof
end

section
/-! SUPPORT. What a step depends on of the memory, and when it answers a next state (30_encoding.md R84, R88, R89). -/

namespace Sys2Proof.Machine

/-! ### Another memory (30_encoding.md R88) -/

/-- A fetch depends on the bytes it reads alone. -/
theorem State.fetch_of_reads_agree {s : State} {m : Memory}
    (h : ∀ a ∈ s.fetchReads, ({ s with mem := m } : State).memRead a = s.memRead a) :
    State.fetch { s with mem := m } = s.fetch := by
  have hreads : (State.fetchReads { s with mem := m }).map (State.memRead { s with mem := m }) = s.fetchReads.map s.memRead :=
    List.map_congr_left h
  unfold State.fetch
  rw [hreads]

/-- No instruction reads memory: with another one it does the same to everything else. -/
theorem exec_with_mem {i : Instr} {s t : State} (m : Memory) (h : exec i s = .next t) :
    exec i { s with mem := m } = .next { t with mem := m } := by
  cases i with
  | ret =>
    obtain ⟨h0, rfl⟩ | ⟨h0, target, hv, rfl⟩ := exec_ret_cases h
    · exact exec_ret_empty (s := { s with mem := m }) h0
    · exact exec_ret_pop (s := { s with mem := m }) h0 hv
  | call addr =>
    by_cases hf : 16 ≤ s.sp.toNat
    · rw [exec_call_full hf] at h; cases h
      exact exec_call_full (s := { s with mem := m }) hf
    · rw [exec_call_push (by omega)] at h; cases h
      exact exec_call_push (s := { s with mem := m }) (Nat.lt_of_not_le hf)
  | se x kk =>
    rw [exec_se] at h ⊢; cases h
    rfl
  | sne x kk =>
    rw [exec_sne] at h ⊢; cases h
    rfl
  | halt | ldImm | addn | ldReg | or | and | xor | add =>
    cases h
    rfl

/-! ### Unwritten bytes (20_memory.md R50) -/

theorem Memory.get_unlisted {m : Memory} {a : Nat} (h : ∀ cell ∈ m, cell.1 ≠ a) : Memory.get m a = 0#8 := by
  induction m with
  | nil => rfl
  | cons cell rest ih =>
    rw [Memory.get_cons, if_neg (h cell (.head _)), ih fun c hc => h c (.tail _ hc)]

/-- Two unwritten bytes are the word of HALT. -/
theorem State.fetch_unwritten {s : State} (hpc : s.pc.toNat ≤ 0xFFE)
    (h : ∀ cell ∈ s.mem, cell.1 ≠ s.pc.toNat ∧ cell.1 ≠ s.pc.toNat + 1) : s.fetch = some 0x0000 := by
  obtain ⟨ha, hb⟩ := State.fetch_addresses hpc
  have hhi : s.memRead (s.pc.setWidth 12) = 0#8 := Memory.get_unlisted fun c hc => ha ▸ (h c hc).1
  have hlo : s.memRead ((s.pc + 1).setWidth 12) = 0#8 := Memory.get_unlisted fun c hc => hb ▸ (h c hc).2
  rw [State.fetch_in_bounds hpc, hhi, hlo]
  rfl

/-! ### The end of a run at HALT (30_encoding.md R89) -/

theorem exec_halted_iff {i : Instr} {s t : State} (hr : s.runState = .running) (h : exec i s = .next t) :
    t.runState = .halted ↔ i = .halt := by
  refine ⟨fun ht => ?_, by rintro rfl; cases h; rfl⟩
  obtain ⟨hi, -⟩ | ⟨-, -, rfl⟩ | ⟨-, -, _, -, rfl⟩ | ⟨_, -, -, rfl⟩ | ⟨_, -, -, rfl⟩ | ⟨-, rfl | rfl⟩ | ⟨-, _, rfl⟩ :=
    exec_cases h
  case inl => exact hi
  -- after every other instruction the block is FAULTED or as it was
  case inr.inl | inr.inr.inr.inl => cases ht
  all_goals cases hr.symm.trans ht

theorem step_halted_iff {s t : State} (hr : s.runState = .running) (h : step s = .next t) :
    t.runState = .halted ↔ s.fetch = some 0x0000 := by
  obtain ⟨hn, -⟩ | ⟨-, hf, hst⟩ | ⟨-, op, hf, hd, hst⟩ | ⟨-, op, i, hf, hd, hst⟩ := step_cases s
  · exact absurd hr hn
  · cases hst.symm.trans h
    rw [hf]
    exact iff_of_false nofun nofun
  · cases hst.symm.trans h
    have hop : op ≠ 0x0000 := fun e => by
      rw [decodeWord_halt_iff.mpr e] at hd
      cases hd
    rw [hf, Option.some_inj]
    exact iff_of_false nofun hop
  · rw [exec_halted_iff hr (hst.symm.trans h), hf, Option.some_inj, ← decodeWord_halt_iff, hd, Option.some_inj]

/-! ### When an instruction answers a next state (log entry 3) -/

theorem exec_ret_absent {s : State} (h0 : s.sp ≠ 0) (hv : s.stack[(s.sp - 1).toNat]? = none) :
    exec .ret s = .fault .stackSlotAbsent := by
  have hp : s.advance.pop = none := Option.map_eq_none_iff.mpr hv
  simp only [exec, execRet, if_neg (mt State.stackEmpty_iff.mp h0), hp]

/-- An instruction answers a next state, but for a RET whose `sp` names a slot that S does not have. -/
theorem exec_answers (i : Instr) (s : State) :
    (∃ t, exec i s = .next t) ∨ (16 < s.sp.toNat ∧ exec i s = .fault .stackSlotAbsent) := by
  cases i with
  | ret =>
    by_cases h0 : s.sp = 0
    · exact .inl ⟨_, exec_ret_empty h0⟩
    · cases hv : s.stack[(s.sp - 1).toNat]? with
      | some target => exact .inl ⟨_, exec_ret_pop h0 hv⟩
      | none =>
        have hsp := State.sp_sub_one (State.sp_pos h0)
        have hslot := Vector.getElem?_eq_none_iff.mp hv
        exact .inr ⟨by omega, exec_ret_absent h0 hv⟩
  | call addr =>
    obtain hf | hf := Nat.lt_or_ge s.sp.toNat 16
    · exact .inl ⟨_, exec_call_push hf⟩
    · exact .inl ⟨_, exec_call_full hf⟩
  | halt | se | sne | ldImm | addn | ldReg | or | and | xor | add => exact .inl ⟨_, rfl⟩

/-- The same of a step: a fault at fetch or dispatch is a next state too. -/
theorem step_answers (s : State) :
    (∃ t, step s = .next t) ∨ (16 < s.sp.toNat ∧ step s = .fault .stackSlotAbsent) := by
  obtain ⟨-, hst⟩ | ⟨-, -, hst⟩ | ⟨-, op, -, -, hst⟩ | ⟨-, op, i, -, -, hst⟩ := step_cases s
  case inr.inr.inr => exact hst ▸ exec_answers i s
  all_goals exact .inl ⟨_, hst⟩

end Sys2Proof.Machine
end

section
/-! The obligations on the encoding, and on the step as the decoder sees it. -/

namespace Sys2Proof.Machine

/-- Settles O4: two rows that select one word agree under both masks, and no two rows of the table do. -/
theorem dispatchRowsDisjoint : Obligations.DispatchRowsDisjoint :=
  ⟨dispatchTable_selects_unique, fun w _ => dispatchTable_find_perm w, rfl, rfl, fun _ => decodeWord_family_zero⟩

/-- Settles O5, by the family and function nibbles as quotient and remainder of the word. -/
theorem illegalWordsAreTheListed : Obligations.IllegalWordsAreTheListed := by
  intro w
  rw [decodeWord_none_iff_toNat]
  omega

/-- Settles O6: the encoding is the ADDN word with 0 in the ignored nibble, and every ADDN word decodes alike. -/
theorem addnIgnoresSecondNibble : Obligations.AddnIgnoresSecondNibble := by
  refine ⟨fun x d => ?_, fun _ _ => assemble_addn_refuses, decodeWord_addnWord⟩
  obtain ⟨-, -, hy, -⟩ := addnWord_nibbles x 0 d
  rw [encode_addn, hy]

/-- Settles O28: the fetch reads the same word, and nothing after it reads memory. -/
theorem stepSeesOnlyTheFetchedBytes : Obligations.StepSeesOnlyTheFetchedBytes := by
  intro s t m hreads h
  have hfetch := State.fetch_of_reads_agree hreads
  obtain ⟨hr, hst⟩ | ⟨hr, hf, hst⟩ | ⟨hr, op, hf, hd, hst⟩ | ⟨hr, op, i, hf, hd, hst⟩ := step_cases s
  · cases hst.symm.trans h
    exact step_not_running (s := { s with mem := m }) hr
  · cases hst.symm.trans h
    exact step_out_of_bounds (s := { s with mem := m }) hr (hfetch.trans hf)
  · cases hst.symm.trans h
    exact step_unimplemented (s := { s with mem := m }) hr (hfetch.trans hf) hd
  · rw [step_exec (s := { s with mem := m }) hr (hfetch.trans hf) hd]
    exact exec_with_mem m (hst.symm.trans h)

/-- Settles O32: HALT alone halts, and its word alone decodes to it; two unwritten bytes are that word. -/
theorem onlyTheZeroWordHalts : Obligations.OnlyTheZeroWordHalts := by
  refine ⟨fun _ _ => step_halted_iff, ?otherWords, ?unwritten⟩
  case otherWords =>
    intro s op hr hf hlt h0 h1
    exact ⟨_, step_unimplemented hr hf (decodeWord_family_zero hlt h0 h1), s.raise_faultedFrom _ op⟩
  case unwritten =>
    intro s hr hpc hmem
    exact ⟨s.advance.halt, step_exec hr (State.fetch_unwritten hpc hmem) (decodeWord_halt_iff.mpr rfl), rfl⟩

/-- Settles O35: the one stop of a step is a fault, and needs sp above 16. -/
theorem stepAnswersWithSpInRange : Obligations.StepAnswersWithSpInRange := by
  refine ⟨fun s hsp => ?_, fun s r hr => ?_⟩
  · exact (step_answers s).resolve_right fun ⟨hlt, _⟩ => absurd hsp (Nat.not_le.mpr hlt)
  · obtain ⟨t, h⟩ | ⟨-, h⟩ := step_answers s
    · cases hr.symm.trans h
    · cases hr.symm.trans h

end Sys2Proof.Machine
end

section
/-! SUPPORT. The words of RET and CALL, and what the two do to pc and the stack (30_encoding.md R85; 40_control_flow.md R101 to
R104). -/

namespace Sys2Proof

/-! ### The words of one operation (30_encoding.md R85, R86) -/

/-- A word decodes to `i` when it selects the operation of `i` and its fields are the operands. -/
theorem decodeWord_some_iff_op {w : Word} {i : Instr} :
    decodeWord w = some i ↔ Op.ofWord w = some i.op ∧ i.op.instr (Fields.ofWord w) = i := by
  rw [decodeWord_some_iff]
  refine ⟨?_, fun ⟨ho, hi⟩ => ⟨i.op, ho, hi⟩⟩
  rintro ⟨o, ho, rfl⟩
  rw [Op.op_instr]
  exact ⟨ho, rfl⟩

/-- Outside family 0 the operation is that of the family and function nibbles alone. -/
theorem Op.ofWord_some_iff {w : Word} {o : Op} (hhalt : o ≠ .halt) (hret : o ≠ .ret) :
    Op.ofWord w = some o ↔ Op.ofNibbles (w.extractLsb' 12 4) (w.extractLsb' 0 4) = some o := by
  unfold Op.ofWord
  split
  next h => subst h; exact iff_of_false (fun e => hhalt (Option.some.inj e).symm) nofun
  next =>
    split
    next h => subst h; exact iff_of_false (fun e => hret (Option.some.inj e).symm) nofun
    next => rfl

theorem Op.ofNibbles_ne_ret : ∀ f d : Nibble, Op.ofNibbles f d ≠ some .ret := by
  decide

theorem Op.ofWord_ret_iff {w : Word} : Op.ofWord w = some .ret ↔ w = 0x00EE := by
  refine ⟨fun h => ?_, by rintro rfl; rfl⟩
  unfold Op.ofWord at h
  split at h
  next => cases h
  next =>
    split at h
    next h1 => exact h1
    next => exact absurd h (Op.ofNibbles_ne_ret _ _)

theorem decodeWord_ret_iff {w : Word} : decodeWord w = some .ret ↔ w = 0x00EE :=
  decodeWord_some_iff_op.trans ((and_iff_left rfl).trans Op.ofWord_ret_iff)

theorem Op.ofNibbles_call_iff : ∀ f d : Nibble, Op.ofNibbles f d = some .call ↔ f = 2#4 := by
  decide

theorem Op.ofWord_call_iff {w : Word} : Op.ofWord w = some .call ↔ w.toNat / 4096 = 2 := by
  rw [Op.ofWord_some_iff (o := .call) nofun nofun, Op.ofNibbles_call_iff, ← BitVec.toNat_inj, family_toNat]
  rfl

theorem Fields.addr_toNat (w : Word) : (Fields.ofWord w).addr.toNat = w.toNat % 4096 := by
  rw [Fields.ofWord, BitVec.extractLsb'_toNat, Nat.shiftRight_zero]

theorem decodeWord_call_iff {w : Word} {addr : Addr} :
    decodeWord w = some (.call addr) ↔ w.toNat = 0x2000 + addr.toNat := by
  have haddr := addr.isLt
  calc decodeWord w = some (.call addr)
    _ ↔ Op.ofWord w = some .call ∧ Instr.call (Fields.ofWord w).addr = .call addr := decodeWord_some_iff_op
    _ ↔ w.toNat / 4096 = 2 ∧ w.toNat % 4096 = addr.toNat := by
      rw [Op.ofWord_call_iff, Instr.call.injEq, ← BitVec.toNat_inj, Fields.addr_toNat]
    _ ↔ w.toNat = 0x2000 + addr.toNat := by omega

end Sys2Proof

namespace Sys2Proof.Machine

/-! ### A return and a call (40_control_flow.md R101, R102) -/

/-- An instruction that writes only pc and the stack leaves the registers, the memory and the status. -/
theorem State.control_frame (s : State) (pc : Word) (stack : Vector Word 16) (sp : BitVec 5) :
    SameRegs s { s with pc := pc, stack := stack, sp := sp } ∧ SameMemory s { s with pc := pc, stack := stack, sp := sp } ∧
      SameStatus s { s with pc := pc, stack := stack, sp := sp } :=
  ⟨fun _ => rfl, fun _ => rfl, rfl, rfl, rfl, rfl⟩

theorem exists_slot_index {n : Nat} (h : n < 16) : ∃ j : BitVec 4, j.toNat = n :=
  ⟨BitVec.ofNatLT n h, rfl⟩

/-- A return goes to the address in the slot just below `sp`. -/
theorem exec_ret_slot {s : State} {j : BitVec 4} (h : j.toNat + 1 = s.sp.toNat) :
    exec .ret s = .next { s with pc := s.getSlot j, sp := s.sp - 1 } := by
  have h0 : s.sp ≠ 0 := fun e => by simp [e] at h
  exact exec_ret_pop h0 (s.slot_below_sp j h)

/-- A return straight after a call resumes at the saved address, with the slot of the call still written
(10_state.md R33; 40_control_flow.md R104). -/
theorem exec_ret_after_call {s : State} (addr : Addr) (h : s.sp.toNat < 16) :
    exec .ret ((s.push (s.pc + 2)).setPc (addr.setWidth 16)) =
      .next { s.push (s.pc + 2) with pc := s.pc + 2, sp := s.sp } := by
  obtain ⟨j, hj⟩ := exists_slot_index h
  have hsp : j.toNat + 1 = ((s.push (s.pc + 2)).setPc (addr.setWidth 16)).sp.toNat := by
    rw [hj]
    exact (State.sp_add_one h).symm
  rw [exec_ret_slot hsp, State.getSlot_setPc, State.getSlot_push, if_pos hj, State.setPc_sp, State.push_sp,
    BitVec.add_sub_cancel]
  rfl

/-- A call steps to the state about to run the word at its target. -/
theorem step_call {s : State} {op : Word} {addr : Addr} (hr : s.runState = .running) (h : s.sp.toNat < 16)
    (hf : s.fetch = some op) (hd : decodeWord op = some (.call addr)) :
    step s = .next ((s.push (s.pc + 2)).setPc (addr.setWidth 16)) :=
  (step_exec hr hf hd).trans (exec_call_push h)

theorem State.fetch_after_call (s : State) (addr : Addr) :
    ((s.push (s.pc + 2)).setPc (addr.setWidth 16)).fetch = s.wordAt (addr.setWidth 16) :=
  State.fetch_congr rfl rfl

end Sys2Proof.Machine
end

section
/-! The obligations on control flow. -/

namespace Sys2Proof.Machine

/-- Settles O15: HALT advances and sets the run state, and a HALTED block takes no step. -/
theorem haltEndsTheRun : Obligations.HaltEndsTheRun :=
  ⟨fun _ => decodeWord_halt_iff, fun s =>
    ⟨s.advance.halt, exec_halt s, rfl, rfl, fun _ => rfl, ⟨rfl, fun _ => rfl⟩, fun _ => rfl, ⟨rfl, rfl, rfl⟩,
      step_not_running nofun⟩⟩

/-- Settles O16: the slot a return reads is the one below `sp`, and an empty stack has none. -/
theorem returnPopsOrUnderflows : Obligations.ReturnPopsOrUnderflows := by
  refine ⟨fun _ => decodeWord_ret_iff, fun s hpos hle => ?pops, fun s h0 => ?underflows⟩
  case pops =>
    obtain ⟨j, hj⟩ : ∃ j : BitVec 4, j.toNat = s.sp.toNat - 1 := exists_slot_index (by omega)
    refine ⟨_, exec_ret_slot (j := j) (by omega), State.sp_sub_one hpos, fun k hk => ?_, fun _ => rfl, s.control_frame _ _ _⟩
    have hjk : j = k := BitVec.eq_of_toNat_eq (by omega)
    rw [hjk]
  case underflows => exact ⟨_, exec_ret_empty h0, s.raise_faultedFrom _ _⟩

/-- Settles O17: with a free slot the push, on a full stack the fault, whose word is the encoding of the CALL. -/
theorem callPushesOrOverflows : Obligations.CallPushesOrOverflows := by
  refine ⟨fun _ _ => decodeWord_call_iff, fun addr s h => ?pushes, fun addr s hfull => ?overflows⟩
  case pushes =>
    have hpc : (addr.setWidth 16).toNat = addr.toNat := BitVec.toNat_setWidth_of_le (by decide)
    exact ⟨_, exec_call_push h, State.sp_add_one h, hpc, s.getSlot_push (s.pc + 2), s.control_frame _ _ _⟩
  case overflows =>
    have hsp : 16 ≤ s.sp.toNat := hfull ▸ Nat.le_refl 16
    exact ⟨_, exec_call_full hsp, s.raise_faultedFrom _ _⟩

/-- Settles O29: the call steps to the RET at its target, which goes back to the address the call saved. -/
theorem callThenReturnResumesAfterCall : Obligations.CallThenReturnResumesAfterCall := by
  intro s op addr hr hsp hf hd hret
  have hcall := step_call hr hsp hf hd
  have hback := (step_exec (s := (s.push (s.pc + 2)).setPc (addr.setWidth 16)) hr ((s.fetch_after_call addr).trans hret)
    (decodeWord_ret_iff.mpr rfl)).trans (exec_ret_after_call addr hsp)
  have hrun := (run_succ 1 hcall).trans (run_succ 0 hback)
  obtain ⟨hregs, hmem, hstatus⟩ := s.control_frame (s.pc + 2) (s.push (s.pc + 2)).stack s.sp
  exact ⟨_, hrun, rfl, rfl, hregs, hmem, hstatus, fun j hj => (s.getSlot_push (s.pc + 2) j).trans (if_neg hj)⟩

end Sys2Proof.Machine
end

section
/-! SUPPORT. The words with a register and a byte operand, and what SE and SNE do to pc (30_encoding.md R72, R73, R85;
41_compare.md R110 to R113). -/

namespace Sys2Proof

/-! ### Words with operands `x` and `kk` -/

theorem Fields.x_toNat (w : Word) : (Fields.ofWord w).x.toNat = w.toNat / 256 % 16 := by
  rw [Fields.ofWord, BitVec.extractLsb'_toNat, Nat.shiftRight_eq_div_pow]

theorem Fields.kk_toNat (w : Word) : (Fields.ofWord w).kk.toNat = w.toNat % 256 := by
  rw [Fields.ofWord, BitVec.extractLsb'_toNat, Nat.shiftRight_zero]

/-- An operation that the family nibble alone selects: the words of family `n` and no others. -/
theorem Op.ofWord_family_iff {w : Word} {o : Op} {n : Nibble} (h : ∀ f d, Op.ofNibbles f d = some o ↔ f = n) :
    Op.ofWord w = some o ↔ w.toNat / 4096 = n.toNat := by
  have hn : Op.ofNibbles n 0 = some o := (h n 0).mpr rfl
  have hhalt : o ≠ .halt := by rintro rfl; exact Op.ofNibbles_ne_halt n 0 hn
  have hret : o ≠ .ret := by rintro rfl; exact Op.ofNibbles_ne_ret n 0 hn
  rw [Op.ofWord_some_iff hhalt hret, h, ← BitVec.toNat_inj, family_toNat]

/-- Format XK of family `n` (30_encoding.md R73): one word for each `x` and `kk`, with the operands at bits 11:8 and 7:0. -/
theorem decodeWord_regByte_iff {w : Word} {i : Instr} {x : Reg} {kk : Byte} {n : Nibble}
    (hop : ∀ f d, Op.ofNibbles f d = some i.op ↔ f = n)
    (hfields : ∀ f : Fields, i.op.instr f = i ↔ f.x = x ∧ f.kk = kk) :
    decodeWord w = some i ↔ w.toNat = n.toNat * 4096 + x.toNat * 256 + kk.toNat := by
  have hx := x.isLt
  have hkk := kk.isLt
  calc decodeWord w = some i
    _ ↔ Op.ofWord w = some i.op ∧ i.op.instr (Fields.ofWord w) = i := decodeWord_some_iff_op
    _ ↔ w.toNat / 4096 = n.toNat ∧ w.toNat / 256 % 16 = x.toNat ∧ w.toNat % 256 = kk.toNat := by
      rw [Op.ofWord_family_iff hop, hfields, ← BitVec.toNat_inj, ← BitVec.toNat_inj, Fields.x_toNat, Fields.kk_toNat]
    _ ↔ w.toNat = n.toNat * 4096 + x.toNat * 256 + kk.toNat := by omega

theorem Op.ofNibbles_se_iff : ∀ f d : Nibble, Op.ofNibbles f d = some .se ↔ f = 3#4 := by
  decide

theorem Op.ofNibbles_sne_iff : ∀ f d : Nibble, Op.ofNibbles f d = some .sne ↔ f = 4#4 := by
  decide

theorem decodeWord_se_iff {w : Word} {x : Reg} {kk : Byte} :
    decodeWord w = some (.se x kk) ↔ w.toNat = 0x3000 + x.toNat * 256 + kk.toNat :=
  decodeWord_regByte_iff (i := .se x kk) (n := 3) Op.ofNibbles_se_iff fun f => Iff.of_eq (Instr.se.injEq f.x f.kk x kk)

theorem decodeWord_sne_iff {w : Word} {x : Reg} {kk : Byte} :
    decodeWord w = some (.sne x kk) ↔ w.toNat = 0x4000 + x.toNat * 256 + kk.toNat :=
  decodeWord_regByte_iff (i := .sne x kk) (n := 4) Op.ofNibbles_sne_iff fun f => Iff.of_eq (Instr.sne.injEq f.x f.kk x kk)

end Sys2Proof

namespace Sys2Proof.Machine

/-! ### The two skips (41_compare.md R110, R111, R113) -/

/-- The extra 2 of a taken skip on top of the advance stage (41_compare.md R112). -/
theorem State.pc_advanced_twice (s : State) : s.pc + 2 + 2 = s.pc + 4 :=
  BitVec.add_assoc s.pc 2 2

theorem exec_se_pc (x : Reg) (kk : Byte) (s : State) :
    exec (.se x kk) s = .next (s.setPc (if s.getV x = kk then s.pc + 4 else s.pc + 2)) := by
  rw [exec_se, State.pc_advanced_twice]

theorem exec_sne_pc (x : Reg) (kk : Byte) (s : State) :
    exec (.sne x kk) s = .next (s.setPc (if s.getV x = kk then s.pc + 2 else s.pc + 4)) := by
  rw [exec_sne, State.pc_advanced_twice, ite_not]

theorem State.setPc_sameRegs (s : State) (w : Word) : SameRegs s (s.setPc w) :=
  State.getV_setPc s w

end Sys2Proof.Machine
end

section
/-! The obligation on the skip instructions. -/

namespace Sys2Proof.Machine

/-- Settles O18: each skip is one `setPc`, whose target the one comparison selects and whose frame is every other field. -/
theorem skipsCompareAndMoveOnlyPc : Obligations.SkipsCompareAndMoveOnlyPc :=
  ⟨fun _ _ _ => decodeWord_se_iff, fun _ _ _ => decodeWord_sne_iff, fun x kk s =>
    ⟨_, _, exec_se_pc x kk s, exec_sne_pc x kk s, State.setPc_pc s _, State.setPc_pc s _,
      s.setPc_sameRegs _, s.setPc_sameBesidesRegsAndPc _, s.setPc_sameRegs _, s.setPc_sameBesidesRegsAndPc _⟩⟩

end Sys2Proof.Machine
end

section
/-! SUPPORT. The words of LD Vx, kk and ADDN Vx, d, the frame of an instruction that writes one register, and the sum of ADDN
(30_encoding.md R73, R74, R85, R92; 42_immediate.md R120 to R122). -/

namespace Sys2Proof

/-! ### The words of LD Vx, kk and of ADDN Vx, d -/

theorem Op.ofNibbles_ldImm_iff : ∀ f d : Nibble, Op.ofNibbles f d = some .ldImm ↔ f = 6#4 := by
  decide

theorem Op.ofNibbles_addn_iff : ∀ f d : Nibble, Op.ofNibbles f d = some .addn ↔ f = 7#4 := by
  decide

theorem decodeWord_ldImm_iff {w : Word} {x : Reg} {kk : Byte} :
    decodeWord w = some (.ldImm x kk) ↔ w.toNat = 0x6000 + x.toNat * 256 + kk.toNat :=
  decodeWord_regByte_iff (i := .ldImm x kk) (n := 6) Op.ofNibbles_ldImm_iff fun f => Iff.of_eq (Instr.ldImm.injEq f.x f.kk x kk)

theorem Fields.y_toNat (w : Word) : (Fields.ofWord w).y.toNat = w.toNat / 16 % 16 := by
  rw [Fields.ofWord, BitVec.extractLsb'_toNat, Nat.shiftRight_eq_div_pow]

theorem Fields.d_toNat (w : Word) : (Fields.ofWord w).d.toNat = w.toNat % 16 :=
  function_toNat w

/-- Format XD (30_encoding.md R73, R92): bits 7:4 are free, and decode to the field `y` that ADDN does not use. -/
theorem decodeWord_addn_iff {w : Word} {x : Reg} {d : Nibble} :
    decodeWord w = some (.addn x d) ↔
      ∃ y : BitVec 4, w.toNat = 0x7000 + x.toNat * 256 + y.toNat * 16 + d.toNat := by
  have hx := x.isLt
  have hd := d.isLt
  calc decodeWord w = some (.addn x d)
    _ ↔ Op.ofWord w = some .addn ∧ Instr.addn (Fields.ofWord w).x (Fields.ofWord w).d = .addn x d := decodeWord_some_iff_op
    _ ↔ w.toNat / 4096 = 7 ∧ w.toNat / 256 % 16 = x.toNat ∧ w.toNat % 16 = d.toNat := by
      rw [Op.ofWord_family_iff Op.ofNibbles_addn_iff, Instr.addn.injEq, ← BitVec.toNat_inj, ← BitVec.toNat_inj,
        Fields.x_toNat, Fields.d_toNat]
      rfl
    _ ↔ ∃ y : BitVec 4, w.toNat = 0x7000 + x.toNat * 256 + y.toNat * 16 + d.toNat := by
      constructor
      · rintro ⟨hfam, hwx, hwd⟩
        refine ⟨(Fields.ofWord w).y, ?_⟩
        rw [Fields.y_toNat]
        omega
      · rintro ⟨y, hw⟩
        have hy := y.isLt
        omega

end Sys2Proof

namespace Sys2Proof.Machine

/-! ### One register written after the advance (10_state.md R21, R28) -/

theorem State.advance_setV_frame (s : State) (x : Reg) (b : Byte) :
    SameRegsBut x s (s.advance.setV x b) ∧ (s.advance.setV x b).pc = s.pc + 2 ∧
      SameBesidesRegsAndPc s (s.advance.setV x b) :=
  ⟨s.advance.setV_sameRegsBut x b, rfl, s.advance.setV_sameBesidesRegsAndPc x b⟩

/-! ### The sum of ADDN (42_immediate.md R121, R122) -/

theorem addn_sum_toNat (a : Byte) (d : Nibble) : (a + d.setWidth 8).toNat = (a.toNat + d.toNat) % 256 := by
  rw [BitVec.toNat_add, BitVec.toNat_setWidth_of_le (by decide)]

end Sys2Proof.Machine
end

section
/-! The obligations on the immediate instructions. -/

namespace Sys2Proof.Machine

/-- Settles O19: the operand is the byte written, by one `setV` after the advance. -/
theorem loadImmediateWritesByte : Obligations.LoadImmediateWritesByte :=
  ⟨fun _ _ _ => decodeWord_ldImm_iff, fun x kk s =>
    ⟨_, exec_ldImm x kk s, s.advance.getV_setV_same x kk, s.advance_setV_frame x kk⟩⟩

/-- Settles O20: the zero-extended nibble keeps its value, and the 8-bit sum wraps in the one `setV` after the advance. -/
theorem addNibbleWrapsWithoutFlag : Obligations.AddNibbleWrapsWithoutFlag := by
  refine ⟨fun _ _ _ => decodeWord_addn_iff, fun x d s => ⟨_, exec_addn x d s, ?sum, s.advance_setV_frame x _⟩⟩
  case sum => rw [State.getV_setV_same, addn_sum_toNat]

end Sys2Proof.Machine
end

section
/-! SUPPORT. The words with two register operands, the sum and the carry of ADD, and the frame of its two writes
(30_encoding.md R72, R73, R75, R85; 43_register_alu.md R130 to R136). -/

namespace Sys2Proof

/-! ### Words with operands `x` and `y` -/

/-- An operation of family 8 that the function nibble selects: the words of family 8 with function `q` and no others. -/
theorem Op.ofWord_function_iff {w : Word} {o : Op} {q : Nibble} (h : ∀ f d, Op.ofNibbles f d = some o ↔ f = 8#4 ∧ d = q) :
    Op.ofWord w = some o ↔ w.toNat / 4096 = 8 ∧ w.toNat % 16 = q.toNat := by
  have hq : Op.ofNibbles 8 q = some o := (h 8 q).mpr ⟨rfl, rfl⟩
  have hhalt : o ≠ .halt := by rintro rfl; exact Op.ofNibbles_ne_halt 8 q hq
  have hret : o ≠ .ret := by rintro rfl; exact Op.ofNibbles_ne_ret 8 q hq
  rw [Op.ofWord_some_iff hhalt hret, h, ← BitVec.toNat_inj, ← BitVec.toNat_inj, family_toNat, function_toNat]
  rfl

/-- Format XYF (30_encoding.md R73): one word for each `x` and `y`, with the operands at bits 11:8 and 7:4 and the function
at bits 3:0. -/
theorem decodeWord_regReg_iff {w : Word} {i : Instr} {x y : Reg} {q : Nibble}
    (hop : ∀ f d, Op.ofNibbles f d = some i.op ↔ f = 8#4 ∧ d = q)
    (hfields : ∀ f : Fields, i.op.instr f = i ↔ f.x = x ∧ f.y = y) :
    decodeWord w = some i ↔ w.toNat = 0x8000 + q.toNat + x.toNat * 256 + y.toNat * 16 := by
  have hx := x.isLt
  have hy := y.isLt
  have hq := q.isLt
  calc decodeWord w = some i
    _ ↔ Op.ofWord w = some i.op ∧ i.op.instr (Fields.ofWord w) = i := decodeWord_some_iff_op
    _ ↔ (w.toNat / 4096 = 8 ∧ w.toNat % 16 = q.toNat) ∧ w.toNat / 256 % 16 = x.toNat ∧ w.toNat / 16 % 16 = y.toNat := by
      rw [Op.ofWord_function_iff hop, hfields, ← BitVec.toNat_inj, ← BitVec.toNat_inj, Fields.x_toNat, Fields.y_toNat]
    _ ↔ w.toNat = 0x8000 + q.toNat + x.toNat * 256 + y.toNat * 16 := by omega

theorem Op.ofNibbles_ldReg_iff : ∀ f d : Nibble, Op.ofNibbles f d = some .ldReg ↔ f = 8#4 ∧ d = 0#4 := by
  decide

theorem Op.ofNibbles_or_iff : ∀ f d : Nibble, Op.ofNibbles f d = some .or ↔ f = 8#4 ∧ d = 1#4 := by
  decide

theorem Op.ofNibbles_and_iff : ∀ f d : Nibble, Op.ofNibbles f d = some .and ↔ f = 8#4 ∧ d = 2#4 := by
  decide

theorem Op.ofNibbles_xor_iff : ∀ f d : Nibble, Op.ofNibbles f d = some .xor ↔ f = 8#4 ∧ d = 3#4 := by
  decide

theorem Op.ofNibbles_add_iff : ∀ f d : Nibble, Op.ofNibbles f d = some .add ↔ f = 8#4 ∧ d = 4#4 := by
  decide

theorem decodeWord_ldReg_iff {w : Word} {x y : Reg} :
    decodeWord w = some (.ldReg x y) ↔ w.toNat = 0x8000 + x.toNat * 256 + y.toNat * 16 :=
  decodeWord_regReg_iff (i := .ldReg x y) Op.ofNibbles_ldReg_iff fun f => Iff.of_eq (Instr.ldReg.injEq f.x f.y x y)

theorem decodeWord_or_iff {w : Word} {x y : Reg} :
    decodeWord w = some (.or x y) ↔ w.toNat = 0x8001 + x.toNat * 256 + y.toNat * 16 :=
  decodeWord_regReg_iff (i := .or x y) Op.ofNibbles_or_iff fun f => Iff.of_eq (Instr.or.injEq f.x f.y x y)

theorem decodeWord_and_iff {w : Word} {x y : Reg} :
    decodeWord w = some (.and x y) ↔ w.toNat = 0x8002 + x.toNat * 256 + y.toNat * 16 :=
  decodeWord_regReg_iff (i := .and x y) Op.ofNibbles_and_iff fun f => Iff.of_eq (Instr.and.injEq f.x f.y x y)

theorem decodeWord_xor_iff {w : Word} {x y : Reg} :
    decodeWord w = some (.xor x y) ↔ w.toNat = 0x8003 + x.toNat * 256 + y.toNat * 16 :=
  decodeWord_regReg_iff (i := .xor x y) Op.ofNibbles_xor_iff fun f => Iff.of_eq (Instr.xor.injEq f.x f.y x y)

theorem decodeWord_add_iff {w : Word} {x y : Reg} :
    decodeWord w = some (.add x y) ↔ w.toNat = 0x8004 + x.toNat * 256 + y.toNat * 16 :=
  decodeWord_regReg_iff (i := .add x y) Op.ofNibbles_add_iff fun f => Iff.of_eq (Instr.add.injEq f.x f.y x y)

end Sys2Proof

namespace Sys2Proof.Machine

/-! ### ADD Vx, Vy: the destination write, then the flag write (43_register_alu.md R134, R136) -/

theorem carryByte_eq (a b : Byte) : carryByte a b = if 256 ≤ a.toNat + b.toNat then 1 else 0 := by
  simp only [carryByte, carryOut, decide_eq_true_iff]

/-- Two register writes after the advance leave every other register, and everything besides the registers and pc. -/
theorem State.advance_setV_setV_frame (s : State) (x z : Reg) (a b : Byte) :
    (∀ r, r ≠ x → r ≠ z → ((s.advance.setV x a).setV z b).getV r = s.getV r) ∧
      ((s.advance.setV x a).setV z b).pc = s.pc + 2 ∧ SameBesidesRegsAndPc s ((s.advance.setV x a).setV z b) :=
  ⟨fun _ hx hz => (State.getV_setV_other _ b hz).trans (State.getV_setV_other s.advance a hx), rfl,
    (s.advance.setV x a).setV_sameBesidesRegsAndPc z b⟩

end Sys2Proof.Machine
end

section
/-! The obligations on the register-register instructions. -/

namespace Sys2Proof.Machine

/-- Settles O21: each of the four is one `setV` after the advance, of a value computed from the state before it. -/
theorem copyAndLogicResults : Obligations.CopyAndLogicResults := by
  refine fun x y => ⟨fun _ => ⟨decodeWord_ldReg_iff, decodeWord_or_iff, decodeWord_and_iff, decodeWord_xor_iff⟩, fun s => ?_⟩
  have hresult := s.advance.getV_setV_same x
  have hframe := s.advance_setV_frame x
  refine ⟨_, _, _, _, exec_ldReg x y s, exec_or x y s, exec_and x y s, exec_xor x y s, hresult _, hresult _, hresult _,
    hresult _, ?frames⟩
  case frames => simpa only [List.forall_mem_cons] using ⟨hframe _, hframe _, hframe _, hframe _, nofun⟩

/-- Settles O22: the flag write is last, so it remains when x = 0xF and else leaves the destination's wrapped sum. -/
theorem addWrapsAndSetsCarry : Obligations.AddWrapsAndSetsCarry := by
  refine ⟨fun _ _ _ => decodeWord_add_iff, fun x y s =>
    ⟨_, exec_add x y s, fun hx => ?sum, ?carry, s.advance_setV_setV_frame x 0xF _ _⟩⟩
  case sum => rw [State.getV_setV_other _ _ hx, State.getV_setV_same, BitVec.toNat_add]
  case carry => rw [State.getV_setV_same, carryByte_eq]

end Sys2Proof.Machine
end

section
/-! SUPPORT. The condition and the word of each fault, and that a RUNNING block faults under no other (60_exceptions.md R150 to
R157). -/

namespace Sys2Proof

theorem encode_call_toNat (addr : Addr) : (encode (.call addr)).toNat = 0x2000 + addr.toNat := by
  have hlt : addr.toNat < 2 ^ 13 := addr.isLt.trans (by decide)
  have hword : (encode (.call addr)).toNat = 0x2000 ||| addr.toNat := by
    simp only [encode, BitVec.toNat_or, BitVec.toNat_setWidth_of_le (show 12 ≤ 16 by decide)]
    rfl
  exact hword.trans (Nat.two_pow_add_eq_or_of_lt hlt 1).symm

/-- The word of a fault in CALL is the fetched word: no other decodes to that CALL (30_encoding.md R90). -/
theorem encode_call_of_decodeWord {w : Word} {addr : Addr} (h : decodeWord w = some (.call addr)) :
    encode (.call addr) = w :=
  BitVec.eq_of_toNat_eq ((encode_call_toNat addr).trans (decodeWord_call_iff.mp h).symm)

/-- A word that no row selects does not decode (30_encoding.md R85). -/
theorem decodeWord_none_of_unselected {w : Word} (h : ∀ r ∈ dispatchTable, r.selects w = false) : decodeWord w = none :=
  Option.map_eq_none_iff.mpr (List.find?_eq_none.mpr fun r hr => Bool.eq_false_iff.mp (h r hr))

end Sys2Proof

namespace Sys2Proof.Machine

/-- The condition under which a step from `s` raises the fault `c` with the word `op` (60_exceptions.md R150's table; log entry 3
for sp above 16). -/
def State.Raises (s : State) (c : FaultCause) (op : Word) : Prop :=
  match c with
  | .outOfBoundsFetch => op = 0x0000 ∧ 0xFFE < s.pc.toNat
  | .unimplementedOpcode => s.fetch = some op ∧ decodeWord op = none
  | .stackOverflow => s.fetch = some op ∧ (∃ addr, decodeWord op = some (.call addr)) ∧ 16 ≤ s.sp.toNat
  | .stackUnderflow => s.fetch = some op ∧ op = 0x00EE ∧ s.sp = 0

/-- Under its condition each fault is taken (60_exceptions.md R151 to R154). -/
theorem step_of_raises {s : State} {c : FaultCause} {op : Word} (hr : s.runState = .running) (h : s.Raises c op) :
    step s = .next (s.raise c op) := by
  cases c with
  | outOfBoundsFetch =>
    obtain ⟨rfl, hpc⟩ := h
    exact step_out_of_bounds hr (State.fetch_none_iff.mpr hpc)
  | unimplementedOpcode =>
    obtain ⟨hf, hd⟩ := h
    exact step_unimplemented hr hf hd
  | stackOverflow =>
    obtain ⟨hf, ⟨addr, hd⟩, hfull⟩ := h
    rw [step_exec hr hf hd, exec_call_full hfull, encode_call_of_decodeWord hd]
  | stackUnderflow =>
    obtain ⟨hf, rfl, hempty⟩ := h
    exact (step_exec hr hf (decodeWord_ret_iff.mpr rfl)).trans (exec_ret_empty hempty)

/-- An instruction faults only as a RET on an empty stack or a CALL on a full one. -/
theorem exec_faulted_cases {i : Instr} {s t : State} (hr : s.runState = .running) (h : exec i s = .next t)
    (ht : t.runState = .faulted) :
    (i = .ret ∧ s.sp = 0 ∧ t = s.raise .stackUnderflow 0x00EE) ∨
    (∃ addr, i = .call addr ∧ 16 ≤ s.sp.toNat ∧ t = s.raise .stackOverflow (encode (.call addr))) := by
  obtain ⟨-, rfl⟩ | hret | ⟨-, -, _, -, rfl⟩ | hcall | ⟨_, -, -, rfl⟩ | ⟨-, rfl | rfl⟩ | ⟨-, _, rfl⟩ := exec_cases h
  case inr.inl => exact .inl hret
  case inr.inr.inr.inl => exact .inr hcall
  -- HALT ends HALTED, and every other instruction leaves the block RUNNING
  case inl => cases ht
  all_goals cases hr.symm.trans ht

/-- A step that faults takes one of the four faults, under its condition (60_exceptions.md R150, R155). -/
theorem raises_of_step_faulted {s t : State} (hr : s.runState = .running) (h : step s = .next t)
    (ht : t.runState = .faulted) : ∃ c op, s.Raises c op ∧ t = s.raise c op := by
  obtain ⟨hn, -⟩ | ⟨-, hf, hst⟩ | ⟨-, op, hf, hd, hst⟩ | ⟨-, op, i, hf, hd, hst⟩ := step_cases s
  · exact absurd hr hn
  · cases hst.symm.trans h
    exact ⟨.outOfBoundsFetch, _, ⟨rfl, State.fetch_none_iff.mp hf⟩, rfl⟩
  · cases hst.symm.trans h
    exact ⟨.unimplementedOpcode, op, ⟨hf, hd⟩, rfl⟩
  · obtain ⟨rfl, hempty, rfl⟩ | ⟨addr, rfl, hfull, rfl⟩ := exec_faulted_cases hr (hst.symm.trans h) ht
    · obtain rfl := decodeWord_ret_iff.mp hd
      exact ⟨.stackUnderflow, _, ⟨hf, rfl, hempty⟩, rfl⟩
    · rw [encode_call_of_decodeWord hd]
      exact ⟨.stackOverflow, op, ⟨hf, ⟨addr, hd⟩, hfull⟩, rfl⟩

/-- With `sp` in its range the overflow condition is `sp = 16` (10_state.md R32; 60_exceptions.md R153). -/
theorem State.full_iff_of_sp_le {s : State} (h : s.sp.toNat ≤ 16) : 16 ≤ s.sp.toNat ↔ s.sp = 16 :=
  ⟨fun hge => BitVec.eq_of_toNat_eq (Nat.le_antisymm h hge), fun e => e ▸ Nat.le_refl 16⟩

/-- With `sp` in its range some fault's condition holds exactly when one of R150's four does. -/
theorem State.exists_raises_iff {s : State} (h : s.sp.toNat ≤ 16) :
    (∃ c op, s.Raises c op) ↔ 0xFFE < s.pc.toNat ∨ ∃ op, s.fetch = some op ∧
      (decodeWord op = none ∨ ((∃ addr, decodeWord op = some (.call addr)) ∧ s.sp = 16) ∨ (op = 0x00EE ∧ s.sp = 0)) := by
  rw [← State.full_iff_of_sp_le h]
  constructor
  · rintro ⟨_ | _ | _ | _, op, hop, hc⟩
    case outOfBoundsFetch => exact .inl hc
    case unimplementedOpcode => exact .inr ⟨op, hop, .inl hc⟩
    case stackOverflow => exact .inr ⟨op, hop, .inr (.inl hc)⟩
    case stackUnderflow => exact .inr ⟨op, hop, .inr (.inr hc)⟩
  · rintro (hpc | ⟨op, hf, hd | hfull | hempty⟩)
    · exact ⟨.outOfBoundsFetch, 0x0000, rfl, hpc⟩
    · exact ⟨.unimplementedOpcode, op, hf, hd⟩
    · exact ⟨.stackOverflow, op, hf, hfull⟩
    · exact ⟨.stackUnderflow, op, hf, hempty⟩

end Sys2Proof.Machine
end

section
/-! The obligations on faults. -/

namespace Sys2Proof.Machine

/-- Settles O30: the faulting step is a fault entry, whose frame is that of `State.raise`, and a FAULTED block takes no step. -/
theorem faultsArePrecise : Obligations.FaultsArePrecise := by
  intro s t hr h ht
  obtain ⟨c, op, hc, rfl⟩ := raises_of_step_faulted hr h ht
  refine ⟨c.code, op, s.raise_faultedFrom c op, rfl, step_not_running nofun, ?condition⟩
  case condition =>
    cases c with
    | outOfBoundsFetch => exact .inl ⟨rfl, hc⟩
    | unimplementedOpcode => exact .inr (.inl ⟨rfl, hc⟩)
    | stackOverflow => exact .inr (.inr (.inl ⟨rfl, hc⟩))
    | stackUnderflow => exact .inr (.inr (.inr ⟨rfl, hc⟩))

/-- Settles O31: a step faults exactly when it raises one of the four faults. -/
theorem faultsExactlyUnderTheFourConditions : Obligations.FaultsExactlyUnderTheFourConditions := by
  intro s hr hsp
  obtain ⟨t, h⟩ := stepAnswersWithSpInRange.1 s hsp
  refine ⟨t, h, ?_⟩
  rw [← State.exists_raises_iff hsp]
  constructor
  · intro ht
    obtain ⟨c, op, hc, -⟩ := raises_of_step_faulted hr h ht
    exact ⟨c, op, hc⟩
  · rintro ⟨c, op, hc⟩
    cases (step_of_raises hr hc).symm.trans h
    rfl

/-- Settles O10: out of bounds no read is issued, and the fault's word is 0x0000. -/
theorem outOfBoundsFetchFaults : Obligations.OutOfBoundsFetchFaults :=
  fun s hr hpc => ⟨State.fetchReads_out_of_bounds hpc, _, step_of_raises (c := .outOfBoundsFetch) hr ⟨rfl, hpc⟩,
    s.raise_faultedFrom _ _⟩

/-- Settles O11: a word that no row selects does not decode. -/
theorem unimplementedOpcodeFaults : Obligations.UnimplementedOpcodeFaults :=
  fun s _ hr hf hrows => ⟨_, step_of_raises (c := .unimplementedOpcode) hr ⟨hf, decodeWord_none_of_unselected hrows⟩,
    s.raise_faultedFrom _ _⟩

end Sys2Proof.Machine
end

section
/-! SUPPORT. The length of a run: every step of a RUNNING block ends the run or lowers its rank, and the rank is below 2 * 2048^17
(70_reset_and_hazards.md R187). -/

namespace Sys2Proof.Machine

theorem State.raise_ended (s : State) (c : FaultCause) (op : Word) : (s.raise c op).ended :=
  .inr rfl

/-! ### What an instruction and a step do to the rank -/

theorem exec_ends_or_lowers_rank {i : Instr} {s t : State} (hr : s.runState = .running) (hsp : s.sp.toNat ≤ 16)
    (hpc : s.pc.toNat ≤ 0xFFE) (h : exec i s = .next t) : t.ended ∨ (t.runState = .running ∧ t.rank < s.rank) := by
  have hadv := State.advanced_pc_toNat hpc
  obtain ⟨-, rfl⟩ | ⟨-, -, rfl⟩ | ⟨-, h0, target, hv, rfl⟩ | ⟨_, -, -, rfl⟩ | ⟨addr, -, hfree, rfl⟩ | ⟨-, rfl | rfl⟩ |
    ⟨-, v, rfl⟩ := exec_cases h
  -- HALT and the two faults end the run
  · exact .inl (.inl rfl)
  · exact .inl (s.raise_ended _ _)
  · exact .inr ⟨hr, State.rank_return hsp h0 hv⟩
  · exact .inl (s.raise_ended _ _)
  · exact .inr ⟨hr, State.rank_call addr hfree hpc⟩
  -- at the same depth pc moves on by 2 or 4
  · exact .inr ⟨hr, State.rank_move hsp hpc rfl (fun _ => rfl) hadv.ge⟩
  · have hskip : (s.pc + 2 + 2).toNat = s.pc.toNat + 4 := by bv_omega
    exact .inr ⟨hr, State.rank_move hsp hpc rfl (fun _ => rfl) (by rw [State.setPc_pc]; omega)⟩
  · exact .inr ⟨hr, State.rank_move hsp hpc rfl (fun _ => rfl) hadv.ge⟩

theorem step_ends_or_lowers_rank {s t : State} (hr : s.runState = .running) (hsp : s.sp.toNat ≤ 16) (h : step s = .next t) :
    t.ended ∨ (t.runState = .running ∧ t.rank < s.rank) := by
  obtain ⟨hn, -⟩ | ⟨-, -, hst⟩ | ⟨-, op, -, -, hst⟩ | ⟨-, op, i, hf, -, hst⟩ := step_cases s
  · exact absurd hr hn
  · cases hst.symm.trans h
    exact .inl (s.raise_ended _ _)
  · cases hst.symm.trans h
    exact .inl (s.raise_ended _ _)
  · exact exec_ends_or_lowers_rank hr hsp (State.pc_le_of_fetch hf) (hst.symm.trans h)

/-- With sp in its range the block steps, and sp stays in it. -/
theorem step_keeps_sp_le {s : State} (hsp : s.sp.toNat ≤ 16) : ∃ t, step s = .next t ∧ t.sp.toNat ≤ 16 := by
  obtain ⟨t, h⟩ := stepAnswersWithSpInRange.1 s hsp
  exact ⟨t, h, (stackPointerMovesByOne s t hsp h).1⟩

/-- The rank bounds the length of a run, since it cannot fall for ever. -/
theorem run_ends_within_rank (s : State) (hr : s.runState = .running) (hsp : s.sp.toNat ≤ 16) :
    ∃ n ≤ s.rank, ∃ t, Host.Core.run core n s = .next t ∧ t.ended := by
  obtain ⟨u, hu, husp⟩ := step_keeps_sp_le hsp
  obtain he | ⟨hur, hlt⟩ := step_ends_or_lowers_rank hr hsp hu
  · exact ⟨1, Nat.le_add_left 1 _, u, run_succ 0 hu, he⟩
  · obtain ⟨n, hn, t, hrun, he⟩ := run_ends_within_rank u hur husp
    exact ⟨n + 1, by omega, t, (run_succ n hu).trans hrun, he⟩
termination_by s.rank

/-! ### The size of the rank -/

/-- As in a geometric sum, 2047 times the part of n callers is at most what 2048 times the weight falls by from depth 0 to n. -/
theorem suspendedRank_le (s : State) {n : Nat} (hn : n ≤ 16) :
    2047 * suspendedRank s n + 2048 * fetchWeight (17 - n) ≤ 2048 * fetchWeight 17 := by
  induction n with
  | zero => simp [suspendedRank]
  | succ n ih =>
    have hprev := ih (by omega)
    have hdepth : 17 - n = (16 - n) + 1 := by omega
    have hcaller := Nat.mul_le_mul_right (fetchWeight (16 - n)) (fetchesLeft_le (s.getSlot (BitVec.ofNat 4 n)))
    rw [hdepth, fetchWeight] at hprev
    rw [suspendedRank, Nat.add_sub_add_right 16 1 n]
    omega

theorem State.rank_lt {s : State} (hsp : s.sp.toNat ≤ 16) : s.rank < 2 * 2048 ^ 17 := by
  have hcallers := suspendedRank_le s hsp
  have hdepth : 17 - s.sp.toNat = (16 - s.sp.toNat) + 1 := by omega
  have hfetches := Nat.mul_le_mul_right (fetchWeight (16 - s.sp.toNat)) (fetchesLeft_le s.pc)
  have hfull : 2048 * fetchWeight 17 < 2047 * (2 * 2048 ^ 17) := by decide
  rw [hdepth, fetchWeight] at hcallers
  unfold State.rank
  omega

end Sys2Proof.Machine
end

section
/-! SUPPORT. Weakly fair executions: where a RUNNING block's next step falls, what the block's steps alone lead to, and how an
execution is made from moves (70_reset_and_hazards.md R190). -/

namespace Sys2Proof.Machine

variable {states : Nat → State} {moves : Nat → Move}

/-! ### The next step of a RUNNING block -/

/-- Were neither a step nor a reset to come, the block would be RUNNING for ever, which weak fairness excludes. -/
theorem WeaklyFair.exists_step_or_reset (hf : WeaklyFair states moves) (he : IsExecution states moves) {n : Nat}
    (hr : (states n).runState = .running) : ∃ k, moves (n + k) = .block ∨ moves (n + k) = .host .reset := by
  by_contra hnone
  simp only [not_exists, not_or] at hnone
  have hstands : ∀ k, states (n + k) = states n := fun k =>
    he.running_holds hr (fun i _ => (hnone i).1) (fun i _ => (hnone i).2)
  obtain ⟨m, hm, -, hblock⟩ := hf n fun m hm => by
    obtain ⟨k, rfl⟩ := Nat.exists_eq_add_of_le hm
    rw [hstands, hr]
  obtain ⟨k, rfl⟩ := Nat.exists_eq_add_of_le hm
  exact (hnone k).1 hblock

/-- The first step or reset finds the state as it was. -/
theorem WeaklyFair.first_step_or_reset (hf : WeaklyFair states moves) (he : IsExecution states moves) {n : Nat}
    (hr : (states n).runState = .running) :
    ∃ m, n ≤ m ∧ states m = states n ∧ (moves m = .block ∨ moves m = .host .reset) := by
  classical
  have hex := hf.exists_step_or_reset he hr
  have hbefore : ∀ i < Nat.find hex, moves (n + i) ≠ .block ∧ moves (n + i) ≠ .host .reset :=
    fun i hi => not_or.mp (Nat.find_min hex hi)
  exact ⟨n + Nat.find hex, Nat.le_add_right _ _,
    he.running_holds hr (fun i hi => (hbefore i hi).1) (fun i hi => (hbefore i hi).2), Nat.find_spec hex⟩

theorem IsExecution.step_of_block (he : IsExecution states moves) {n : Nat} (hb : moves n = .block) :
    step (states n) = .next (states (n + 1)) :=
  Move.apply_block_iff.mp (hb ▸ he n)

/-! ### The block's steps inside an execution -/

/-- A weakly fair execution without a reset passes through what the block's steps alone lead to. -/
theorem WeaklyFair.passes_run (hf : WeaklyFair states moves) (he : IsExecution states moves) {n k : Nat} {t : State}
    (hx : ∀ m, n ≤ m → moves m ≠ .host .reset) (h : Host.Core.run core k (states n) = .next t) :
    ∃ m, n ≤ m ∧ states m = t := by
  induction k generalizing n with
  | zero => cases h; exact ⟨n, Nat.le_refl n, rfl⟩
  | succ k ih =>
    by_cases hr : (states n).runState = .running
    · obtain ⟨m, hm, hstate, hblock | hreset⟩ := hf.first_step_or_reset he hr
      · have hstep := he.step_of_block hblock
        rw [← hstate, run_succ k hstep] at h
        obtain ⟨j, hj, hjt⟩ := ih (fun i hi => hx i (by omega)) h
        exact ⟨j, by omega, hjt⟩
      · exact absurd hreset (hx m hm)
    · rw [run_succ k (step_not_running hr)] at h
      exact ih hx h

/-- After the end of a run the state stands until a reset (10_state.md R34). -/
theorem IsExecution.ended_holds (he : IsExecution states moves) {n : Nat} (hend : (states n).ended)
    (hx : ∀ m, n ≤ m → moves m ≠ .host .reset) {j : Nat} (hj : n ≤ j) : states j = states n := by
  induction j, hj using Nat.le_induction with
  | base => rfl
  | succ j hj ih =>
    have hmove := he j
    rw [ih] at hmove
    exact (Move.stopped_cases hend hmove).resolve_right (hx j hj)

/-! ### Executions and reachable states -/

/-- An execution from a reachable state passes through reachable states only. -/
theorem IsExecution.reachable (he : IsExecution states moves) (h0 : Reachable (states 0)) (n : Nat) : Reachable (states n) := by
  induction n with
  | zero => exact h0
  | succ n ih =>
    cases hm : moves n with
    | block => exact .step ih (he.step_of_block hm)
    | host act =>
      have hmove := he n
      rw [hm] at hmove
      exact .host act ih hmove

theorem HostAction.apply_sp_le {act : HostAction} {s t : State} (hsp : s.sp.toNat ≤ 16) (h : act.apply s = some t) :
    t.sp.toNat ≤ 16 := by
  by_cases hreset : act = .reset
  · subst hreset; cases h
    exact Nat.zero_le 16
  by_cases hstart : act = .start
  · subst hstart; cases h
    by_cases hi : s.runState = .idle
    · rwa [State.start_of_idle hi]
    · rwa [State.start_of_not_idle hi]
  obtain ⟨-, _, _, _, rfl, -⟩ := HostAction.write_cases hreset hstart h
  exact hsp

/-- No reachable state has sp out of its range (10_state.md R32). -/
theorem Reachable.sp_le {s : State} (h : Reachable s) : s.sp.toNat ≤ 16 := by
  induction h with
  | reset => exact Nat.zero_le 16
  | step _ hst ih => exact (stackPointerMovesByOne _ _ ih hst).1
  | host act _ ha ih => exact HostAction.apply_sp_le ih ha

/-- The state after a block move; the state itself where there is none. -/
def State.afterBlock (s : State) : State :=
  (Move.block.apply s).getD s

theorem State.afterBlock_of_step {s t : State} (h : step s = .next t) : s.afterBlock = t := by
  rw [State.afterBlock, Move.apply_block_iff.mpr h, Option.getD_some]

/-- The block alone, moving for ever from `s`. -/
def blockStates (s : State) : Nat → State :=
  Stream'.iterate State.afterBlock s

theorem blockStates_succ (s : State) (n : Nat) : blockStates s (n + 1) = (blockStates s n).afterBlock := rfl

theorem blockStates_sp_le {s : State} (hsp : s.sp.toNat ≤ 16) (n : Nat) : (blockStates s n).sp.toNat ≤ 16 := by
  induction n with
  | zero => exact hsp
  | succ n ih =>
    obtain ⟨t, ht, htsp⟩ := step_keeps_sp_le ih
    rwa [blockStates_succ, State.afterBlock_of_step ht]

theorem blockStates_execution {s : State} (hsp : s.sp.toNat ≤ 16) : IsExecution (blockStates s) fun _ => .block := fun n => by
  obtain ⟨t, ht, -⟩ := step_keeps_sp_le (blockStates_sp_le hsp n)
  rw [blockStates_succ, State.afterBlock_of_step ht]
  exact Move.apply_block_iff.mpr ht

theorem blockStates_fair (s : State) : WeaklyFair (blockStates s) fun _ => .block :=
  fun n hr => ⟨n, Nat.le_refl n, hr n (Nat.le_refl n), rfl⟩

/-- One move put before an execution. -/
theorem IsExecution.cons (he : IsExecution states moves) {s : State} {move : Move} (h : move.apply s = some (states 0)) :
    IsExecution (Stream'.cons s states) (Stream'.cons move moves)
  | 0 => h
  | n + 1 => he n

/-- Weak fairness speaks of what is to come, so a move put before takes nothing from it. -/
theorem WeaklyFair.cons (hf : WeaklyFair states moves) (s : State) (move : Move) :
    WeaklyFair (Stream'.cons s states) (Stream'.cons move moves) := fun n hr => by
  obtain ⟨m, hm, hstep⟩ := hf n fun m hm => hr (m + 1) (Nat.le_succ_of_le hm)
  exact ⟨m + 1, Nat.le_succ_of_le hm, hstep⟩

/-- The states follow one another from some point on in a weakly fair execution from reset. -/
def ExtendsToReset (states : Nat → State) : Prop :=
  ∃ (whole : Nat → State) (moves : Nat → Move), IsExecution whole moves ∧ WeaklyFair whole moves ∧ whole 0 = State.reset ∧
    ∃ n, ∀ k, whole (n + k) = states k

theorem ExtendsToReset.of_cons {s : State} (h : ExtendsToReset (Stream'.cons s states)) : ExtendsToReset states := by
  obtain ⟨whole, moves, he, hf, h0, n, hn⟩ := h
  exact ⟨whole, moves, he, hf, h0, n + 1, fun k => by rw [Nat.add_right_comm]; exact hn (k + 1)⟩

/-- A weakly fair execution from a reachable state is what follows of one from reset. -/
theorem Reachable.extendsToReset {s : State} (h : Reachable s) (he : IsExecution states moves)
    (hf : WeaklyFair states moves) (h0 : states 0 = s) : ExtendsToReset states := by
  induction h generalizing states moves with
  | reset => exact ⟨states, moves, he, hf, h0, 0, fun k => by rw [Nat.zero_add]⟩
  | @step s t _ hst ih =>
    have hmove : Move.block.apply s = some (states 0) := h0 ▸ Move.apply_block_iff.mpr hst
    exact (ih (he.cons hmove) (hf.cons s .block) rfl).of_cons
  | @host s t act _ ha ih =>
    have hmove : (Move.host act).apply s = some (states 0) := h0 ▸ ha
    exact (ih (he.cons hmove) (hf.cons s (.host act)) rfl).of_cons

end Sys2Proof.Machine
end

section
/-! SUPPORT. The state after reset and the launch sequence (70_reset_and_hazards.md R180 to R182). -/

namespace Sys2Proof.Machine

/-! ### Reset -/

theorem State.getV_reset (r : Reg) : State.reset.getV r = 0x00 := by
  simp [State.getV, State.reset]

theorem State.getSlot_reset (j : BitVec 4) : State.reset.getSlot j = 0x0000 :=
  State.reset.getSlot_hostReset j

/-! ### The parts of the launch -/

theorem HostAction.applyAll_cons {act : HostAction} {s t : State} (h : act.apply s = some t) (rest : List HostAction) :
    HostAction.applyAll (act :: rest) s = HostAction.applyAll rest t := by
  simp only [HostAction.applyAll, h]

theorem HostAction.writeV_of_idle {s : State} (hi : s.runState = .idle) (x : Reg) (b : Byte) :
    (HostAction.writeV x b).apply s = some (s.setV x b) :=
  State.whileIdle_of_idle hi _

theorem HostAction.writePc_of_idle {s : State} (hi : s.runState = .idle) (entry : Word) :
    (HostAction.writePc entry).apply s = some (s.setPc entry) :=
  State.whileIdle_of_idle hi _

/-- Reset and load leave nothing of the state before them: not of the block, nor of its memory. -/
theorem HostAction.applyAll_reset_loadImage (s : State) {image : List Byte} (hlen : image.length ≤ 4096) :
    HostAction.applyAll [.reset, .loadImage image] s = some { State.reset with mem := Memory.ofImageFrom 0 image } := by
  rw [HostAction.applyAll_cons (t := s.hostReset) rfl, HostAction.applyAll_cons (HostAction.loadImage_of_idle rfl hlen)]
  rfl

/-- The value that presets in order leave in a register: that of the last one that names it. -/
def presetValue (presets : List (Reg × Byte)) (r : Reg) : Option Byte :=
  (presets.reverse.find? fun p => p.1 == r).map Prod.snd

theorem presetValue_cons (p : Reg × Byte) (rest : List (Reg × Byte)) (r : Reg) (b : Byte) :
    (presetValue (p :: rest) r).getD b = (presetValue rest r).getD (if r = p.1 then p.2 else b) := by
  simp only [presetValue, List.reverse_cons, List.find?_append, List.find?_singleton, beq_iff_eq, eq_comm (a := r)]
  cases rest.reverse.find? fun q => q.1 == r with
  | some q => rfl
  | none => by_cases h : p.1 = r <;> simp [h]

/-- In IDLE register presets write V alone, each register its last preset. -/
theorem HostAction.applyAll_presets (presets : List (Reg × Byte)) {s : State} (hi : s.runState = .idle) :
    ∃ v, HostAction.applyAll (presets.map fun p => .writeV p.1 p.2) s = some { s with v := v } ∧
      ∀ r, State.getV { s with v := v } r = (presetValue presets r).getD (s.getV r) := by
  induction presets generalizing s with
  | nil => exact ⟨s.v, rfl, fun _ => rfl⟩
  | cons p rest ih =>
    obtain ⟨v, hv, hget⟩ := ih (s := s.setV p.1 p.2) hi
    refine ⟨v, (HostAction.applyAll_cons (HostAction.writeV_of_idle hi p.1 p.2) _).trans hv, fun r => ?_⟩
    rw [presetValue_cons, ← State.getV_setV]
    exact hget r

/-- In IDLE the write of an entry PC, where the host makes one, writes pc alone. -/
theorem HostAction.applyAll_entry (entry : Option Word) {s : State} (hi : s.runState = .idle) :
    HostAction.applyAll (entry.toList.map .writePc) s = some (s.setPc (entry.getD s.pc)) := by
  cases entry with
  | none => rfl
  | some w => exact HostAction.applyAll_cons (HostAction.writePc_of_idle hi w) []

theorem HostAction.applyAll_start {s : State} (hi : s.runState = .idle) :
    HostAction.applyAll [.start] s = some { s with runState := .running } :=
  congrArg some (State.start_of_idle hi)

/-- The launch leaves everything at its reset value but what the host wrote and the run state. -/
theorem launch_eq (presets : List (Reg × Byte)) (entry : Option Word) {image : List Byte} (hlen : image.length ≤ 4096) :
    ∃ v, launch image presets entry =
        some { State.reset with
          v := v, pc := entry.getD 0x000, mem := Memory.ofImageFrom 0 image, runState := .running } ∧
      ∀ r, State.getV { State.reset with v := v } r = (presetValue presets r).getD 0x00 := by
  obtain ⟨v, hv, hget⟩ := HostAction.applyAll_presets presets
    (s := { State.reset with mem := Memory.ofImageFrom 0 image }) rfl
  refine ⟨v, ?_, fun r => (hget r).trans (congrArg _ (State.getV_reset r))⟩
  rw [launch, HostAction.applyAll_append, HostAction.applyAll_append, HostAction.applyAll_append,
    HostAction.applyAll_reset_loadImage _ hlen, Option.bind_some, hv, Option.bind_some, HostAction.applyAll_entry entry rfl,
    Option.bind_some, HostAction.applyAll_start rfl]
  rfl

end Sys2Proof.Machine
end

section
/-! The obligations on the length of a run, on its progress, and on reset and launch. -/

namespace Sys2Proof.Machine

/-- Settles O34: every step of a RUNNING block ends the run or lowers the rank, which is below the bound. -/
theorem everyRunEnds : Obligations.EveryRunEnds := by
  intro s hr hsp
  obtain ⟨n, hn, t, hrun, hend⟩ := run_ends_within_rank s hr hsp
  exact ⟨n, hn.trans_lt (State.rank_lt hsp), t, hrun, hend⟩

/-- Settles O45: the first step or reset to come finds the state as it was. -/
theorem fairRunningBlockSteps : Obligations.FairRunningBlockSteps := by
  intro states moves he hf n hr
  obtain ⟨m, hm, hstate, hblock | hreset⟩ := hf.first_step_or_reset he hr
  · exact ⟨m, hm, hstate, .inl ⟨hblock, hstate ▸ he.step_of_block hblock⟩⟩
  · exact ⟨m, hm, hstate, .inr hreset⟩

/-- Settles O46: the execution passes through the end of the block's own run, and stays there. -/
theorem fairRunsEnd : Obligations.FairRunsEnd := by
  intro states moves he hf n hr hsp hx
  obtain ⟨k, hk, t, hrun, hend⟩ := everyRunEnds (states n) hr hsp
  obtain ⟨m, hm, rfl⟩ := hf.passes_run he hx hrun
  exact ⟨m, k, hm, hk, hrun, hend, fun _ => he.ended_holds hend fun i hi => hx i (hm.trans hi)⟩

/-- Settles O47: after the moves that reach a state the block moves alone, which is weakly fair. -/
theorem fairExecutionsReachEveryReachableState : Obligations.FairExecutionsReachEveryReachableState := by
  refine fun s => ⟨fun h => ?onFairExecution, ?reachable⟩
  case onFairExecution =>
    obtain ⟨whole, moves, he, hf, h0, n, hn⟩ :=
      h.extendsToReset (blockStates_execution h.sp_le) (blockStates_fair s) rfl
    exact ⟨whole, moves, he, hf, h0, n, hn 0⟩
  case reachable =>
    rintro ⟨states, moves, he, -, h0, n, rfl⟩
    exact he.reachable (h0 ▸ .reset) n

/-- Settles O40: the values are those of `State.reset`, and the load gives the whole memory anew. -/
theorem resetValues : Obligations.ResetValues := by
  refine ⟨fun s => ⟨s.hostReset, rfl, rfl, fun _ => rfl, rfl⟩, State.getV_reset, rfl, State.getSlot_reset, rfl, rfl, rfl, rfl, rfl,
    fun _ => rfl, fun s image hlen => ?loaded⟩
  case loaded =>
    have hload := HostAction.applyAll_append [.reset, .loadImage image] [.start] s
    rw [HostAction.applyAll_reset_loadImage s hlen, Option.bind_some, HostAction.applyAll_start rfl] at hload
    exact ⟨_, hload, rfl, State.memRead_ofImage State.reset image⟩

/-- Settles O44, from the state that the parts of the launch leave together. -/
theorem launchStateAtFirstFetch : Obligations.LaunchStateAtFirstFetch := by
  intro image presets entry hlen
  obtain ⟨v, hlaunch, hget⟩ := launch_eq presets entry hlen
  exact ⟨_, hlaunch, rfl, rfl, rfl, State.getSlot_reset, hget, State.memRead_ofImage State.reset image, rfl, rfl, rfl⟩

end Sys2Proof.Machine
end

section
/-! SUPPORT. The words of `encode` as numbers, and that the decoder and the encoder agree (30_encoding.md R71 to R73, R90, R92). -/

namespace Sys2Proof

/-! ### Bit fields side by side as a sum -/

/-- A field below the lowest set bit of the rest of a word adds its value. -/
theorem or_toNat_of_lt {a b : Word} (k : Nat) (ha : 2 ^ k ∣ a.toNat) (hb : b.toNat < 2 ^ k) :
    (a ||| b).toNat = a.toNat + b.toNat := by
  obtain ⟨c, hc⟩ := ha
  rw [BitVec.toNat_or, hc, Nat.two_pow_add_eq_or_of_lt hb]

theorem nibble_shiftLeft_toNat (x : Nibble) {k : Nat} (hk : k ≤ 12) :
    (x.setWidth 16 <<< k : Word).toNat = x.toNat * 2 ^ k := by
  have hlt : x.toNat * 2 ^ k < 2 ^ 16 :=
    calc x.toNat * 2 ^ k < 2 ^ 4 * 2 ^ k := Nat.mul_lt_mul_of_pos_right x.isLt (Nat.two_pow_pos k)
      _ = 2 ^ (4 + k) := (Nat.pow_add 2 4 k).symm
      _ ≤ 2 ^ 16 := Nat.pow_le_pow_right (by decide) (by omega)
  rw [BitVec.toNat_shiftLeft, BitVec.toNat_setWidth_of_le (by decide), Nat.shiftLeft_eq, Nat.mod_eq_of_lt hlt]

theorem family_x_toNat {p : Word} (hp : p.toNat % 4096 = 0) (x : Reg) :
    (p ||| x.setWidth 16 <<< 8).toNat = p.toNat + x.toNat * 256 := by
  have hx : (x.setWidth 16 <<< 8 : Word).toNat = x.toNat * 256 := nibble_shiftLeft_toNat x (by decide)
  have hlt := x.isLt
  rw [or_toNat_of_lt 12 (Nat.dvd_of_mod_eq_zero hp) (by omega), hx]

/-- The word of format XK (30_encoding.md R73). -/
theorem regByte_toNat {p : Word} (hp : p.toNat % 4096 = 0) (x : Reg) (kk : Byte) :
    (p ||| x.setWidth 16 <<< 8 ||| kk.setWidth 16).toNat = p.toNat + x.toNat * 256 + kk.toNat := by
  have hpx := family_x_toNat hp x
  have hkk : (kk.setWidth 16).toNat = kk.toNat := BitVec.toNat_setWidth_of_le (by decide)
  rw [or_toNat_of_lt 8 (by omega) (hkk ▸ kk.isLt), hpx, hkk]

/-- A word from its four nibbles (30_encoding.md R71). -/
theorem nibbles_toNat {p : Word} (hp : p.toNat % 4096 = 0) (x y d : Nibble) :
    (p ||| x.setWidth 16 <<< 8 ||| y.setWidth 16 <<< 4 ||| d.setWidth 16).toNat =
      p.toNat + x.toNat * 256 + y.toNat * 16 + d.toNat := by
  have hpx := family_x_toNat hp x
  have hy : (y.setWidth 16 <<< 4 : Word).toNat = y.toNat * 16 := nibble_shiftLeft_toNat y (by decide)
  have hd : (d.setWidth 16).toNat = d.toNat := BitVec.toNat_setWidth_of_le (by decide)
  have hylt := y.isLt
  have hpxy := or_toNat_of_lt (a := p ||| x.setWidth 16 <<< 8) (b := y.setWidth 16 <<< 4) 8 (by omega) (by omega)
  rw [or_toNat_of_lt 4 (by omega) (hd ▸ d.isLt), hpxy, hpx, hy, hd]

/-- The word of format XYF with function `q` (30_encoding.md R73). -/
theorem regReg_toNat (q x y : Nibble) :
    (0x8000#16 ||| q.setWidth 16 ||| x.setWidth 16 <<< 8 ||| y.setWidth 16 <<< 4).toNat =
      0x8000 + q.toNat + x.toNat * 256 + y.toNat * 16 := by
  have hlast : 0x8000#16 ||| q.setWidth 16 ||| x.setWidth 16 <<< 8 ||| y.setWidth 16 <<< 4 =
      0x8000#16 ||| x.setWidth 16 <<< 8 ||| y.setWidth 16 <<< 4 ||| q.setWidth 16 := by ac_rfl
  have hnibbles := nibbles_toNat (p := 0x8000#16) rfl x y q
  rw [hlast, hnibbles, BitVec.toNat_ofNat]
  omega

/-! ### The encodings as numbers (30_encoding.md R90) -/

theorem encode_se_toNat (x : Reg) (kk : Byte) : (encode (.se x kk)).toNat = 0x3000 + x.toNat * 256 + kk.toNat :=
  regByte_toNat rfl x kk

theorem encode_sne_toNat (x : Reg) (kk : Byte) : (encode (.sne x kk)).toNat = 0x4000 + x.toNat * 256 + kk.toNat :=
  regByte_toNat rfl x kk

theorem encode_ldImm_toNat (x : Reg) (kk : Byte) : (encode (.ldImm x kk)).toNat = 0x6000 + x.toNat * 256 + kk.toNat :=
  regByte_toNat rfl x kk

theorem addnWord_toNat (x y d : BitVec 4) :
    (addnWord x y d).toNat = 0x7000 + x.toNat * 256 + y.toNat * 16 + d.toNat :=
  nibbles_toNat rfl x y d

theorem encode_addn_toNat (x : Reg) (d : Nibble) : (encode (.addn x d)).toNat = 0x7000 + x.toNat * 256 + d.toNat := by
  rw [encode_addn, addnWord_toNat]
  simp

theorem encode_ldReg_toNat (x y : Reg) : (encode (.ldReg x y)).toNat = 0x8000 + x.toNat * 256 + y.toNat * 16 :=
  regReg_toNat 0 x y

theorem encode_or_toNat (x y : Reg) : (encode (.or x y)).toNat = 0x8001 + x.toNat * 256 + y.toNat * 16 :=
  regReg_toNat 1 x y

theorem encode_and_toNat (x y : Reg) : (encode (.and x y)).toNat = 0x8002 + x.toNat * 256 + y.toNat * 16 :=
  regReg_toNat 2 x y

theorem encode_xor_toNat (x y : Reg) : (encode (.xor x y)).toNat = 0x8003 + x.toNat * 256 + y.toNat * 16 :=
  regReg_toNat 3 x y

theorem encode_add_toNat (x y : Reg) : (encode (.add x y)).toNat = 0x8004 + x.toNat * 256 + y.toNat * 16 :=
  regReg_toNat 4 x y

/-! ### The decoder and the encoder on words -/

theorem decodeWord_encode (i : Instr) : decodeWord (encode i) = some i := by
  cases i with
  | halt => exact decodeWord_halt_iff.mpr rfl
  | ret => exact decodeWord_ret_iff.mpr rfl
  | call addr => exact decodeWord_call_iff.mpr (encode_call_toNat addr)
  | se x kk => exact decodeWord_se_iff.mpr (encode_se_toNat x kk)
  | sne x kk => exact decodeWord_sne_iff.mpr (encode_sne_toNat x kk)
  | ldImm x kk => exact decodeWord_ldImm_iff.mpr (encode_ldImm_toNat x kk)
  | addn x d => exact encode_addn x d ▸ decodeWord_addnWord x 0 d
  | ldReg x y => exact decodeWord_ldReg_iff.mpr (encode_ldReg_toNat x y)
  | or x y => exact decodeWord_or_iff.mpr (encode_or_toNat x y)
  | and x y => exact decodeWord_and_iff.mpr (encode_and_toNat x y)
  | xor x y => exact decodeWord_xor_iff.mpr (encode_xor_toNat x y)
  | add x y => exact decodeWord_add_iff.mpr (encode_add_toNat x y)

/-- Every operation but ADDN has one word for each choice of operands. -/
theorem word_eq_of_decodeWord {w u : Word} {i : Instr} (ha : i.op ≠ .addn) (hw : decodeWord w = some i)
    (hu : decodeWord u = some i) : w = u := by
  apply BitVec.eq_of_toNat_eq
  cases i with
  | halt => rw [decodeWord_halt_iff.mp hw, decodeWord_halt_iff.mp hu]
  | ret => rw [decodeWord_ret_iff.mp hw, decodeWord_ret_iff.mp hu]
  | call addr => rw [decodeWord_call_iff.mp hw, decodeWord_call_iff.mp hu]
  | se x kk => rw [decodeWord_se_iff.mp hw, decodeWord_se_iff.mp hu]
  | sne x kk => rw [decodeWord_sne_iff.mp hw, decodeWord_sne_iff.mp hu]
  | ldImm x kk => rw [decodeWord_ldImm_iff.mp hw, decodeWord_ldImm_iff.mp hu]
  | addn x d => exact absurd rfl ha
  | ldReg x y => rw [decodeWord_ldReg_iff.mp hw, decodeWord_ldReg_iff.mp hu]
  | or x y => rw [decodeWord_or_iff.mp hw, decodeWord_or_iff.mp hu]
  | and x y => rw [decodeWord_and_iff.mp hw, decodeWord_and_iff.mp hu]
  | xor x y => rw [decodeWord_xor_iff.mp hw, decodeWord_xor_iff.mp hu]
  | add x y => rw [decodeWord_add_iff.mp hw, decodeWord_add_iff.mp hu]

/-- The words of ADDN Vx, d are the sixteen with some nibble in bits 7:4 (30_encoding.md R92). -/
theorem eq_addnWord_of_decodeWord {w : Word} {x : Reg} {d : Nibble} (h : decodeWord w = some (.addn x d)) :
    ∃ y, w = addnWord x y d := by
  obtain ⟨y, hy⟩ := decodeWord_addn_iff.mp h
  exact ⟨y, BitVec.eq_of_toNat_eq (hy.trans (addnWord_toNat x y d).symm)⟩

theorem addnWord_mask (x y d : BitVec 4) : addnWord x y d &&& 0xFF0F#16 = addnWord x 0 d := by
  ext i hi
  interval_cases i <;> simp [addnWord]

theorem Instr.eq_addn_of_op {i : Instr} (h : i.op = .addn) : ∃ x d, i = .addn x d := by
  cases i with
  | addn x d => exact ⟨x, d, rfl⟩
  | _ => cases h

theorem encode_of_decodeWord {w : Word} {i : Instr} (h : decodeWord w = some i) :
    encode i = if i.op = .addn then w &&& 0xFF0F#16 else w := by
  split
  next ha =>
    obtain ⟨x, d, rfl⟩ := Instr.eq_addn_of_op ha
    obtain ⟨y, rfl⟩ := eq_addnWord_of_decodeWord h
    rw [addnWord_mask, encode_addn]
  next ha => exact word_eq_of_decodeWord ha (decodeWord_encode i) h

/-! ### The decoder on bytes (20_memory.md R52, R54) -/

theorem decode_wordBytes {w : Word} {i : Instr} (h : decodeWord w = some i) (rest : List Byte) :
    decode (wordBytes w ++ rest) = .ok (i, rest) := by
  simp only [wordBytes, List.cons_append, List.nil_append, decode, joinBytes_extract, h]

theorem decode_wordBytes_unimplemented {w : Word} (h : decodeWord w = none) (rest : List Byte) :
    decode (wordBytes w ++ rest) = .error (.unimplemented w) := by
  simp only [wordBytes, List.cons_append, List.nil_append, decode, joinBytes_extract, h]

/-- The decoder of table words is the decoder of words. -/
theorem decodeTableWord_eq (nbits w : Nat) : decodeTableWord nbits w = decodeWord (tableWord nbits w) := by
  cases h : decodeWord (tableWord nbits w) with
  | some i =>
    have hbytes := decode_wordBytes h []
    rw [List.append_nil] at hbytes
    simp only [decodeTableWord, hbytes]
  | none =>
    have hbytes := decode_wordBytes_unimplemented h []
    rw [List.append_nil] at hbytes
    simp only [decodeTableWord, hbytes]

/-! ### The operand numbers of a listing (30_encoding.md R90, R92) -/

theorem OperandKind.inRange_toNat (k : OperandKind) (b : BitVec k.width) : k.inRange b.toNat = true :=
  OperandKind.inRange_iff.mpr b.isLt

theorem OperandKind.toNat_ofNat {k : OperandKind} {n : Nat} (h : k.inRange n = true) : (BitVec.ofNat k.width n).toNat = n :=
  Nat.mod_eq_of_lt (OperandKind.inRange_iff.mp h)

theorem assemble_operands (i : Instr) : assemble i.op (i.operands.map Prod.snd) = some i := by
  have hreg := OperandKind.inRange_toNat .reg
  have hnibble := OperandKind.inRange_toNat .nibble
  have hbyte := OperandKind.inRange_toNat .byte
  have haddr := OperandKind.inRange_toNat .addr
  simp only [OperandKind.width] at hreg hnibble hbyte haddr
  cases i <;> simp [Instr.op, Instr.operands, assemble, hreg, hnibble, hbyte, haddr]

/-- An instruction accepted under the range checks of its two operands is written by the two numbers themselves. -/
theorem of_two_in_range {k l : OperandKind} {a b : Nat} {i j : Instr}
    (h : (if (k.inRange a && l.inRange b) = true then some j else none) = some i)
    (hj : j.operands.map Prod.snd = [(BitVec.ofNat k.width a).toNat, (BitVec.ofNat l.width b).toNat]) :
    i.op = j.op ∧ i.operands.map Prod.snd = [a, b] := by
  obtain ⟨hin, hi⟩ := Option.ite_none_right_eq_some.mp h
  cases hi
  obtain ⟨ha, hb⟩ := Bool.and_eq_true_iff.mp hin
  rw [hj, OperandKind.toNat_ofNat ha, OperandKind.toNat_ofNat hb]
  exact ⟨rfl, rfl⟩

theorem of_assemble {o : Op} {operands : List Nat} {i : Instr} (h : assemble o operands = some i) :
    i.op = o ∧ i.operands.map Prod.snd = operands := by
  unfold assemble at h
  split at h
  case h_1 | h_2 => cases h; exact ⟨rfl, rfl⟩
  case h_3 a =>
    obtain ⟨ha, hi⟩ := Option.ite_none_right_eq_some.mp h
    cases hi
    exact ⟨rfl, congrArg (fun n => [n]) (OperandKind.toNat_ofNat ha)⟩
  case h_13 => cases h
  all_goals exact of_two_in_range h rfl

end Sys2Proof
end

section
/-! The obligations on the encoding as the decoder and the assembler see it. -/

namespace Sys2Proof

/-- Settles O2: the bytes join to the word again, and its operation and fields are those encoded. -/
theorem decodeAfterEncode : Obligations.DecodeAfterEncode :=
  fun i rest _ => decode_wordBytes (decodeWord_encode i) rest

/-- Settles O3: both words decode to the instruction, and only ADDN has several. -/
theorem encodeAfterDecode : Obligations.EncodeAfterDecode :=
  fun _ _ h => encode_of_decodeWord h

/-- Settles O8: the operands of an instruction are in range by their types, and a number in range is its own field's value. -/
theorem assemblerTakesOperandsInRange : Obligations.AssemblerTakesOperandsInRange :=
  ⟨assemble_operands, fun _ _ _ h => of_assemble h⟩

/-- Settles O1, by running the decoder on the listed words. -/
theorem specWordsDecode : Obligations.SpecWordsDecode := by
  unfold Obligations.SpecWordsDecode
  decide

/-- Settles O7, from the encodings as numbers. -/
theorem encodedNibbleLayout : Obligations.EncodedNibbleLayout := by
  refine ⟨encode_call_toNat, encode_se_toNat, encode_sne_toNat, encode_ldImm_toNat, encode_addn_toNat, encode_ldReg_toNat,
    fun x y => (encode_or_toNat x y).trans ?_, fun x y => (encode_and_toNat x y).trans ?_,
    fun x y => (encode_xor_toNat x y).trans ?_, fun x y => (encode_add_toNat x y).trans ?_⟩
  all_goals omega

end Sys2Proof
end

section
/-! SUPPORT. A word placed at pc is the one the next fetch reads (20_memory.md R52, R54; log entry 2). -/

namespace Sys2Proof

theorem tableWord_all (w : Nat) : tableWord 16 w = BitVec.ofNat 16 w :=
  BitVec.eq_of_toNat_eq (Nat.mod_mod w (2 ^ 16))

end Sys2Proof

namespace Sys2Proof.Machine

/-- Each byte of a placed word is read back: the low one is written last, and the two addresses differ. -/
theorem State.memRead_placeWord {s : State} (w : Word) (hpc : s.pc.toNat ≤ 0xFFE) (hm : Memory.wf s.mem = true) :
    (s.placeWord w).memRead (s.pc.setWidth 12) = w.extractLsb' 8 8 ∧
      (s.placeWord w).memRead ((s.pc + 1).setWidth 12) = w.extractLsb' 0 8 := by
  obtain ⟨ha, hb⟩ := State.fetch_addresses hpc
  have hne : s.pc.setWidth 12 ≠ ((s.pc + 1).setWidth 12 : Addr) := fun e => by
    have := congrArg BitVec.toNat e
    omega
  have hm' := s.memWrite_wf (s.pc.setWidth 12) (w.extractLsb' 8 8) hm
  constructor
  · rw [State.placeWord, State.memRead_memWrite _ _ _ _ hm', if_neg hne, State.memRead_memWrite _ _ _ _ hm, if_pos rfl]
  · rw [State.placeWord, State.memRead_memWrite _ _ _ _ hm', if_pos rfl]

theorem State.fetch_loadedWith {s : State} (w : Word) (hpc : s.pc.toNat ≤ 0xFFE) (hm : Memory.wf s.mem = true) :
    (s.loadedWith w).fetch = some w := by
  obtain ⟨hhi, hlo⟩ := State.memRead_placeWord w hpc hm
  calc (s.loadedWith w).fetch
    _ = (s.placeWord w).fetch := State.fetch_congr rfl rfl
    _ = some (joinBytes (w.extractLsb' 8 8) (w.extractLsb' 0 8)) := by
      rw [← hhi, ← hlo]
      exact State.fetch_in_bounds hpc
    _ = some w := by rw [joinBytes_extract]

end Sys2Proof.Machine
end

section
/-! The obligations on the step as it runs the word at pc. -/

namespace Sys2Proof.Machine

/-- Settles O14: the placed word is fetched, and the two decoders agree on it. -/
theorem placedWordIsFetched : Obligations.PlacedWordIsFetched := by
  intro s w _ hpc hm
  have hfetch := State.fetch_loadedWith (BitVec.ofNat 16 w) hpc hm
  have hdecode := decodeTableWord_eq 16 w
  rw [tableWord_all] at hdecode
  rw [State.withFetchWord, tableWord_all]
  exact ⟨hfetch, hdecode, fun i hi => step_exec rfl hfetch (hdecode.symm.trans hi)⟩

/-- Settles O12: the two bytes at pc are the fetched word. -/
theorem stepRunsDecodedInstruction : Obligations.StepRunsDecodedInstruction :=
  fun _ _ hr hpc _ hd => step_exec hr (State.fetch_in_bounds hpc) hd

/-- Settles O13, by the run state. -/
theorem noStepUnlessRunning : Obligations.NoStepUnlessRunning :=
  fun _ h => step_not_running h

end Sys2Proof.Machine
end

section
/-! SUPPORT. The invariant under a step: the three ways a step of a RUNNING block can end, and what each leaves of the stack and
the status (10_state.md R29, R32, R34, R35). -/

namespace Sys2Proof.Machine

/-- An instruction faults, halts, or leaves the run state and the fault record. -/
theorem exec_status_cases {i : Instr} {s t : State} (h : exec i s = .next t) :
    t.runState = .faulted ∨ (i = .halt ∧ t = s.advance.halt) ∨ SameStatus s t := by
  obtain hhalt | ⟨-, -, rfl⟩ | ⟨-, -, _, -, rfl⟩ | ⟨_, -, -, rfl⟩ | ⟨_, -, -, rfl⟩ | ⟨-, rfl | rfl⟩ | ⟨-, _, rfl⟩ :=
    exec_cases h
  case inl => exact .inr (.inl hhalt)
  case inr.inl | inr.inr.inr.inl => exact .inl rfl
  all_goals exact .inr (.inr ⟨rfl, rfl, rfl, rfl⟩)

/-- EVERYTHING A STEP CAN DO TO THE STATUS of a RUNNING block: one of the four faults, HALT, or nothing. -/
theorem step_status_cases {s t : State} (hr : s.runState = .running) (h : step s = .next t) :
    (∃ c op, s.Raises c op ∧ t = s.raise c op) ∨ (s.fetch = some 0x0000 ∧ t = s.advance.halt) ∨ SameStatus s t := by
  obtain ⟨hn, -⟩ | ⟨-, -, hst⟩ | ⟨-, op, -, -, hst⟩ | ⟨-, op, i, hf, hd, hst⟩ := step_cases s
  case inl => exact absurd hr hn
  case inr.inr.inr =>
    obtain ht | ⟨rfl, hhalt⟩ | hsame := exec_status_cases (hst.symm.trans h)
    · exact .inl (raises_of_step_faulted hr h ht)
    · exact .inr (.inl ⟨decodeWord_halt_iff.mp hd ▸ hf, hhalt⟩)
    · exact .inr (.inr hsame)
  all_goals
    refine .inl (raises_of_step_faulted hr h ?_)
    cases hst.symm.trans h
    rfl

/-! ### The stack (10_state.md R29, R32) -/

/-- Every slot, live or not, holds an address of at most 0x1000. -/
theorem step_slots_le {s t : State} (hs : ∀ j, (s.getSlot j).toNat ≤ 0x1000) (h : step s = .next t) :
    ∀ j, (t.getSlot j).toNat ≤ 0x1000 := by
  intro j
  obtain ⟨-, hslot⟩ | ⟨-, op, hf, ⟨-, -, hslot⟩ | ⟨_, -, -, -, hslot⟩⟩ := step_stack_cases h
  · exact hslot j ▸ hs j
  · exact hslot j ▸ hs j
  · have hpc := State.pc_le_of_fetch hf
    have hadv := State.advanced_pc_toNat hpc
    rw [hslot]
    split
    · omega
    · exact hs j

/-! ### The fault record (60_exceptions.md R150, R155) -/

/-- The record of a fault entry names its condition. -/
theorem State.Raises.recordExact {s : State} {c : FaultCause} {op : Word} (h : s.Raises c op) (hsp : s.sp.toNat ≤ 16) :
    (s.raise c op).recordExact := by
  have hword : (s.raise c op).wordAt (s.raise c op).pc = s.fetch :=
    (State.wordAt_pc _).trans (State.fetch_congr rfl rfl)
  refine ⟨rfl, ?_⟩
  cases c with
  | outOfBoundsFetch => exact .inl ⟨rfl, h⟩
  | unimplementedOpcode =>
    obtain ⟨hf, hd⟩ := h
    exact .inr (.inl ⟨rfl, hword.trans hf, hd⟩)
  | stackOverflow =>
    obtain ⟨hf, hd, hfull⟩ := h
    exact .inr (.inr (.inl ⟨rfl, hword.trans hf, hd, (State.full_iff_of_sp_le hsp).mp hfull⟩))
  | stackUnderflow =>
    obtain ⟨hf, rfl, hempty⟩ := h
    exact .inr (.inr (.inr ⟨rfl, hword.trans hf, rfl, hempty⟩))

/-! ### The invariant -/

/-- A fault entry keeps everything but the status, and its record is exact. -/
theorem State.Inv.raise {s : State} {c : FaultCause} {op : Word} (h : s.Inv) (hc : s.Raises c op) : (s.raise c op).Inv where
  memory := h.memory
  depth := h.depth
  slots := h.slots
  entry := nofun
  halt := nofun
  record := hc.recordExact h.depth

/-- After HALT the word two below pc is the fetched 0x0000 (70_reset_and_hazards.md R184). -/
theorem State.Inv.advance_halt {s : State} (h : s.Inv) (hr : s.runState = .running) (hf : s.fetch = some 0x0000) :
    s.advance.halt.Inv where
  memory := h.memory
  depth := h.depth
  slots := h.slots
  entry := nofun
  halt _ := by
    have hword : s.advance.halt.wordAt s.pc = s.wordAt s.pc := State.wordAt_congr rfl s.pc
    rw [State.halt_pc, State.advance_pc, BitVec.add_sub_cancel, hword, State.wordAt_pc, hf]
  record := (State.recordExact_iff_of_not_faulted (s := s) (by simp [hr])).mp h.record

/-- While the block stays RUNNING the invariant is about its memory and its stack alone. -/
theorem State.Inv.step_sameStatus {s t : State} (h : s.Inv) (hr : s.runState = .running) (hst : step s = .next t)
    (hsame : SameStatus s t) : t.Inv := by
  obtain ⟨hrun, hkind, hpc, hop⟩ := hsame
  have htr : t.runState = .running := hrun.trans hr
  have hclear := (State.recordExact_iff_of_not_faulted (by simp [hr])).mp h.record
  rw [← hkind, ← hpc, ← hop] at hclear
  exact {
    memory := step_mem hst ▸ h.memory
    depth := (stackPointerMovesByOne s t h.depth hst).1
    slots := step_slots_le h.slots hst
    entry := by simp [htr]
    halt := by simp [htr]
    record := (State.recordExact_iff_of_not_faulted (by simp [htr])).mpr hclear }

theorem step_keeps_inv {s t : State} (hinv : s.Inv) (h : step s = .next t) : t.Inv := by
  by_cases hr : s.runState = .running
  · obtain ⟨c, op, hc, rfl⟩ | ⟨hf, rfl⟩ | hsame := step_status_cases hr h
    · exact hinv.raise hc
    · exact hinv.advance_halt hr hf
    · exact hinv.step_sameStatus hr h hsame
  · cases (step_not_running hr).symm.trans h
    exact hinv

theorem Reachable.inv {s : State} (h : Reachable s) : s.Inv := by
  induction h with
  | reset => exact resetMeetsInv
  | step _ hst ih => exact step_keeps_inv ih hst
  | host act _ ha ih => exact HostAction.apply_keeps_inv ih ha

end Sys2Proof.Machine
end

section
/-! The obligations on the invariant. -/

namespace Sys2Proof.Machine

/-- Settles O36: outside RUNNING a step changes nothing, and a RUNNING block's step faults, halts, or keeps the status. -/
theorem stepKeepsInv : Obligations.StepKeepsInv :=
  fun _ _ hinv h => step_keeps_inv hinv h

/-- Settles O39: reset meets the invariant, steps and host transactions keep it, and it bounds sp so that the step answers. -/
theorem reachableStatesMeetInv : Obligations.ReachableStatesMeetInv :=
  fun s h => ⟨h.inv, stepAnswersWithSpInRange.1 s h.inv.depth⟩

end Sys2Proof.Machine
end
